-- ==== Sys2Proof/Word.lean ====
section
/-! DEFINITION. The one machine word: every register, memory cell, opcode, operand and immediate is an unsigned byte
(00_scope.md R12, 10_state.md R26, 20_memory.md R53). -/

namespace Sys2Proof

/-- An unsigned 8-bit value, 0..255 (R12). -/
abbrev Byte := BitVec 8

/-- The name of a register that exists, 0..7 (10_state.md R26). -/
abbrev RegName := Fin 8

end Sys2Proof
end

