-- ==== Sys2Proof/Syntax.lean ====
section
/-! DEFINITION. The instruction set: one constructor per row of spec/opcode_table.json (40_engine.md R112: a closed
enumeration, one constructor per handler plus one for "unrecognized"). -/

namespace Sys2Proof

/-- An instruction with the operand bytes it gives meaning to (30_encoding.md Table F). A register operand is the WHOLE
operand byte (R82): a byte above 7 is a legal operand that faults when the instruction executes. The bytes a format
ignores are no part of the instruction (R85; log entry 9). -/
inductive Instr where
  /-- Load immediate `i` into the register `a` names (R130). -/
  | ldi (a i : Byte)
  /-- Emit the register `a` names (R135). -/
  | prn (a : Byte)
  /-- Halt (R140). -/
  | hlt
  /-- Multiply the registers `a` and `b` name, into the first (R156). -/
  | mul (a b : Byte)
  /-- Add the registers `a` and `b` name, into the first (R163). -/
  | add (a b : Byte)
  /-- Push the register `a` names (R175). -/
  | push (a : Byte)
  /-- Pop into the register `a` names (R182). -/
  | pop (a : Byte)
  /-- Call the address held by the register `a` names (R195). -/
  | call (a : Byte)
  /-- Return, copying the return address into the register `a` names (R204). -/
  | ret (a : Byte)
  /-- Any opcode byte outside Table O: the one-byte skip (R93). -/
  | unrecognized (op : Byte)
  deriving DecidableEq, Repr

end Sys2Proof
end

