-- ==== Sys2Proof/WellFormed.lean ====
section
/-! DEFINITION. Which terms of Instr are instructions of the hardware. The one check: an "unrecognized" byte is none of the
nine opcodes of 30_encoding.md Table O. Operand bytes need none: every value of every operand decodes (R82, R83, R95). -/

namespace Sys2Proof

/-- The nine opcode bytes of Table O, in its order (R86). -/
def recognizedOpcodes : List Byte := [0x82, 0x47, 0x01, 0xA2, 0xA0, 0x45, 0x46, 0x50, 0x11]

/-- An instruction is well-formed when the byte of a skip is one of the 247 values of R93. -/
def Instr.wellFormed : Instr → Bool
  | .ldi _ _ => true
  | .prn _ => true
  | .hlt => true
  | .mul _ _ => true
  | .add _ _ => true
  | .push _ => true
  | .pop _ => true
  | .call _ => true
  | .ret _ => true
  | .unrecognized op => !recognizedOpcodes.contains op

/-- The check as a proposition. -/
abbrev Instr.WellFormed (i : Instr) : Prop := i.wellFormed = true

end Sys2Proof
end

