-- ==== Sys2Proof/Decode.lean ====
section
/-! DEFINITION. Decoding of the fetch window by the whole opcode byte (30_encoding.md R86), lengths (Table L), the encoder
and the assembly forms (Table A). -/

namespace Sys2Proof

/-- Opcode byte of LDI (Table O). -/
def opLdi : Byte := 0b10000010
/-- Opcode byte of PRN (Table O). -/
def opPrn : Byte := 0b01000111
/-- Opcode byte of HLT (Table O). -/
def opHlt : Byte := 0b00000001
/-- Opcode byte of MUL (Table O). -/
def opMul : Byte := 0b10100010
/-- Opcode byte of ADD (Table O). -/
def opAdd : Byte := 0b10100000
/-- Opcode byte of PUSH (Table O). -/
def opPush : Byte := 0b01000101
/-- Opcode byte of POP (Table O). -/
def opPop : Byte := 0b01000110
/-- Opcode byte of CALL (Table O). -/
def opCall : Byte := 0b01010000
/-- Opcode byte of RET (Table O). -/
def opRet : Byte := 0b00010001

/-- The dispatch multiplexer (R86, R109): the whole opcode byte is compared with the nine values of Table O; a byte that
matches none is the skip (R93). `a` and `b` are the two latched operand bytes (10_state.md R42). -/
def decodeWindow (op a b : Byte) : Instr :=
  if op = opLdi then .ldi a b
  else if op = opPrn then .prn a
  else if op = opHlt then .hlt
  else if op = opMul then .mul a b
  else if op = opAdd then .add a b
  else if op = opPush then .push a
  else if op = opPop then .pop a
  else if op = opCall then .call a
  else if op = opRet then .ret a
  else .unrecognized op

/-- The instruction's opcode byte. -/
def Instr.opcode : Instr → Byte
  | .ldi _ _ => opLdi
  | .prn _ => opPrn
  | .hlt => opHlt
  | .mul _ _ => opMul
  | .add _ _ => opAdd
  | .push _ => opPush
  | .pop _ => opPop
  | .call _ => opCall
  | .ret _ => opRet
  | .unrecognized op => op

/-- Table L: the number of window bytes the instruction gives meaning to (R88), known from the opcode alone (R89). -/
def Instr.length : Instr → Nat
  | .ldi _ _ => 3
  | .prn _ => 2
  | .hlt => 1
  | .mul _ _ => 3
  | .add _ _ => 3
  | .push _ => 2
  | .pop _ => 2
  | .call _ => 2
  | .ret _ => 2
  | .unrecognized _ => 1

/-- Why bytes are not an instruction. R95: every opcode byte decodes, so the only reason is a window cut short. -/
inductive DecodeError where
  /-- Fewer than the three bytes every step fetches (R80). -/
  | windowTooShort
  deriving DecidableEq, Repr

/-- Decode the instruction at the head of a byte sequence; the answer's second part begins at the first byte beyond the
instruction's length (R80: bytes beyond it "belong to whatever follows"). -/
def decode : List Byte → Except DecodeError (Instr × List Byte)
  | op :: a :: b :: rest =>
    .ok (decodeWindow op a b, (op :: a :: b :: rest).drop (decodeWindow op a b).length)
  | _ => .error .windowTooShort

/-- The bytes of an instruction, at ascending addresses (R62, Table A). -/
def encode : Instr → List Byte
  | .ldi a i => [opLdi, a, i]
  | .prn a => [opPrn, a]
  | .hlt => [opHlt]
  | .mul a b => [opMul, a, b]
  | .add a b => [opAdd, a, b]
  | .push a => [opPush, a]
  | .pop a => [opPop, a]
  | .call a => [opCall, a]
  | .ret a => [opRet, a]
  | .unrecognized op => [op]

/-- The three window bytes of an instruction whose table bits are `w`: bit 0 is the least significant bit of the FIRST
byte, and every bit from `nbits` up is 0 (log entry 12). -/
def tableBytes (nbits w : Nat) : List Byte :=
  let v := w % 2 ^ nbits
  [BitVec.ofNat 8 v, BitVec.ofNat 8 (v / 256), BitVec.ofNat 8 (v / 65536)]

/-- What the decoder reads from table bits laid out as the hardware stores them. -/
def decodeTableWord (nbits w : Nat) : Option Instr :=
  match decode (tableBytes nbits w) with
  | .ok (i, _) => some i
  | .error _ => none

/-- The mnemonics of the assembly syntax (R97, Table A). -/
inductive Mnemonic where
  | LDI | PRN | HLT | MUL | ADD | PUSH | POP | CALL | RET
  deriving DecidableEq, Repr

/-- An assembly operand: a register `r<n>` or an immediate number (R97). -/
inductive AsmOperand where
  | reg (n : Nat)
  | imm (n : Nat)
  deriving DecidableEq, Repr

/-- The bytes of one assembly line by Table A, or none where the line has none of its forms: registers are `r0`..`r7`,
an immediate is 0..255 (R97), and RET is never emitted without its register operand (R98). Log entry 14. -/
def assemble (m : Mnemonic) (ops : List AsmOperand) : Option (List Byte) :=
  let oneReg (op : Byte) : Option (List Byte) :=
    match ops with
    | [.reg a] => if a < 8 then some [op, BitVec.ofNat 8 a] else none
    | _ => none
  let twoRegs (op : Byte) : Option (List Byte) :=
    match ops with
    | [.reg a, .reg b] => if a < 8 ∧ b < 8 then some [op, BitVec.ofNat 8 a, BitVec.ofNat 8 b] else none
    | _ => none
  match m with
  | .LDI =>
    match ops with
    | [.reg a, .imm i] => if a < 8 ∧ i < 256 then some [opLdi, BitVec.ofNat 8 a, BitVec.ofNat 8 i] else none
    | _ => none
  | .PRN => oneReg opPrn
  | .HLT => if ops = [] then some [opHlt] else none
  | .MUL => twoRegs opMul
  | .ADD => twoRegs opAdd
  | .PUSH => oneReg opPush
  | .POP => oneReg opPop
  | .CALL => oneReg opCall
  | .RET => oneReg opRet

end Sys2Proof
end

