-- ==== Sys2Proof/Config.lean ====
section
/-! DEFINITION. The implementation parameters of 00_scope.md R9 (Table P): the fixed numbers, the two configuration
switches, and the one parameter the spec leaves OPEN. -/

namespace Sys2Proof.Config

/-- `MEM_SIZE`: 256 cells, addresses 0..255. -/
abbrev memSize : Nat := 256

/-- `NUM_REGS`: 8 registers, indices 0..7. -/
abbrev numRegs : Nat := 8

/-- `SP_INDEX`: register 7 is the stack pointer (10_state.md R28). -/
abbrev spIndex : RegName := 7

/-- `SP_RESET`: 0xF4 = 244. -/
abbrev spReset : Byte := 0xF4

/-- `PC_RESET`: 0. -/
abbrev pcReset : Nat := 0

/-- `LOAD_BASE`: the image is written from address 0 (70_reset_and_hazards.md R258). -/
abbrev loadBase : Nat := 0

/-- `ADD_PC_ADVANCE`: 3 by default, 0 for the literal reference (42_alu.md R165). -/
inductive AddPcAdvance where
  | three
  | zero
  deriving DecidableEq, Repr

/-- The number of bytes ADD moves the program counter by under each setting of `ADD_PC_ADVANCE`. -/
def AddPcAdvance.bytes : AddPcAdvance → Nat
  | .three => 3
  | .zero => 0

/-- `ALU_OVERFLOW`: what a result above 255 does (42_alu.md R152). -/
inductive AluOverflow where
  | wrap
  | fault
  deriving DecidableEq, Repr

/-- The two configuration switches of Table P, fixed for a run (40_engine.md R115). -/
structure Params where
  addPcAdvance : AddPcAdvance
  aluOverflow : AluOverflow
  deriving DecidableEq, Repr

/-- The defaults Table P states: `ADD_PC_ADVANCE = 3`, `ALU_OVERFLOW = wrap`. -/
def Params.default : Params := { addPcAdvance := .three, aluOverflow := .wrap }

/-- `INIT_MEM`, OPEN: the byte in each cell the program image does not cover (20_memory.md R53,
70_reset_and_hazards.md R257, 92_eei_decisions.md D14). FREE VALUE, safe, log entry 1: it has no body, so whatever is
proved holds for every `INIT_MEM`. -/
opaque initMem : Nat → Byte

end Sys2Proof.Config
end

