-- ==== Sys2Proof/Machine/State.lean ====
section
/-! DEFINITION. The architectural state of the block (10_state.md R25, Table S), the fault record (60_exceptions.md R230),
the reasons a step can stop, and the state after reset. Plain data throughout. -/

namespace Sys2Proof.Machine

open Sys2Proof

/-- Memory as the list of the cells that hold a byte written by the loader, a push or a call. A cell that is not listed
still holds what it held at construction, `INIT_MEM` (20_memory.md R53; Config.initMem, log entries 1 and 2). -/
abbrev Memory := List Host.Cell

/-- The canonical form from address `lo` up: addresses strictly rise, from `lo` on, and each exists (R55). -/
def Memory.wfFrom : Nat → Memory → Bool
  | _, [] => true
  | lo, (a, _) :: m => decide (lo ≤ a) && decide (a < Config.memSize) && Memory.wfFrom (a + 1) m

/-- The canonical form of a memory. -/
def Memory.wf (m : Memory) : Bool := Memory.wfFrom 0 m

/-- The three spaces an index can leave (60_exceptions.md Table E). -/
inductive AddressSpace where
  /-- A memory address (code 1). -/
  | memory
  /-- A register index (code 2). -/
  | register
  /-- A stack-pointer value (code 3). -/
  | stack
  deriving DecidableEq, Repr

/-- The fault kinds of 60_exceptions.md Table E (R221). -/
inductive FaultKind where
  | outOfRangeAddress (space : AddressSpace)
  | operandOverlap
  | arithmeticOverflow
  /-- Code 6, kept for completeness; never raised (R228). -/
  | unsupportedArithmeticOperation
  deriving DecidableEq, Repr

/-- The numeric code of a kind (Table E). -/
def FaultKind.code : FaultKind → Nat
  | .outOfRangeAddress .memory => 1
  | .outOfRangeAddress .register => 2
  | .outOfRangeAddress .stack => 3
  | .operandOverlap => 4
  | .arithmeticOverflow => 5
  | .unsupportedArithmeticOperation => 6

/-- What a failing check says: the fault and its detail, `raise F(info)` of 00_scope.md R16. -/
structure FaultCause where
  kind : FaultKind
  detail : Option Int
  deriving DecidableEq, Repr

/-- The fault record (R230). Its fifth field, `code`, is `FaultRecord.code`, computed from the kind (log entry 10). -/
structure FaultRecord where
  /-- The kind's name, with its space for codes 1 to 3. -/
  kind : FaultKind
  /-- The integer of Table E, or none for code 6. -/
  detail : Option Int
  /-- The byte `M[pc]` of the faulting step, or none when the window check fails at k = 0. -/
  opcode : Option Byte
  /-- The faulting step's program counter. -/
  pc : Nat
  deriving DecidableEq, Repr

/-- The record's `code` field (R230, Table E). -/
def FaultRecord.code (r : FaultRecord) : Nat := r.kind.code

/-- The state of the block: the six components of R25 and, beside them, the parameters of the run. -/
structure State where
  /-- `M[0..255]` (20_memory.md R53). -/
  mem : Memory
  /-- The register file `x[0..7]`; `x[7]` is the stack pointer (R26, R28). -/
  x : Vector Byte 8
  /-- The program counter, a natural number that does not wrap (R33). -/
  pc : Nat
  /-- The running flag (R38). -/
  running : Bool
  /-- The fault record, or none (R40). -/
  fault : Option FaultRecord
  /-- The output stream, oldest element first (R44). -/
  out : List Byte
  /-- The model's own field: the configuration switches of 00_scope.md R9, fixed for the run (log entry 3). -/
  params : Config.Params
  deriving DecidableEq, Repr

/-- Why a step is not performed. A fault an instruction raises is NOT here: the block takes it, and the step answers the
next state with its record (60_exceptions.md R223). -/
inductive Fault where
  /-- Raised by Step on a block whose status is Halted: it "performs no further fetch" (40_engine.md R113). Safe: the
  model stops where the hardware has stopped (log entry 4). -/
  | halted
  /-- Raised by Step on a block whose status is Faulted, with the record it holds: it "performs no further step"
  (60_exceptions.md R223). Safe: the model stops where the hardware has stopped (log entry 4). -/
  | faulted (r : FaultRecord)
  deriving DecidableEq, Repr

/-- What the model refuses. -/
inductive Refusal where
  /-- Raised by a dispatch arm of an instruction that has no meaning yet; no arm is left that does. Safe. -/
  | notModelled (mnemonic : String)
  /-- Raised by State.launch on an image of `n` bytes, n above 256, which "is refused at launch, and the block does not
  run" (70_reset_and_hazards.md R258). No step raises it. Safe. -/
  | imageTooLong (n : Nat)
  deriving DecidableEq, Repr

/-- The register file at reset: zero except the stack pointer, 244 (70_reset_and_hazards.md R255). -/
def resetRegs : Vector Byte 8 := #v[0, 0, 0, 0, 0, 0, 0, Config.spReset]

/-- The block just constructed, under given parameters, before the loader has written a byte (R255, R258). -/
def State.constructed (params : Config.Params) : State :=
  { mem := []
    x := resetRegs
    pc := Config.pcReset
    running := true
    fault := none
    out := []
    params := params }

/-- The state after reset: constructed with the default parameters and launched with the empty image (log entry 5). -/
def State.reset : State := State.constructed Config.Params.default

end Sys2Proof.Machine
end

