-- ==== Sys2Proof/Machine/Ops.lean ====
section
/-! DEFINITION. The named operations over memory, registers, the stack pointer, the output stream and the program counter,
and taking a fault. Each is written from the primitive of the spec it is named after. -/

namespace Sys2Proof.Machine

open Sys2Proof

/-! ## Memory -/

/-- The byte a cell has been given since construction, if any. -/
def Memory.peek : Memory → Nat → Option Byte
  | [], _ => none
  | (k, w) :: m, a => if a = k then some w else Memory.peek m a

/-- Give a cell a byte, keeping the addresses in rising order. -/
def Memory.poke : Memory → Nat → Byte → Memory
  | [], a, v => [(a, v)]
  | (k, w) :: m, a, v =>
    if a < k then (a, v) :: (k, w) :: m
    else if a = k then (a, v) :: m
    else (k, w) :: Memory.poke m a v

/-- The contents of a cell for a given choice of `INIT_MEM`: the latest byte written, or the reset value (R67). -/
def Memory.readWith (init : Nat → Byte) (m : Memory) (a : Nat) : Byte :=
  (Memory.peek m a).getD (init a)

/-- `M[a]`. What a cell never written reads as is `INIT_MEM[a]`, the open parameter (R53, R67; log entry 1). -/
def Memory.read (m : Memory) (a : Nat) : Byte := Memory.readWith Config.initMem m a

/-- The loader's sequential writes from an insertion cursor (10_state.md R47.1, 70_reset_and_hazards.md R258). -/
def Memory.loadFrom (cursor : Nat) : List Byte → Memory → Memory
  | [], m => m
  | v :: vs, m => Memory.loadFrom (cursor + 1) vs (Memory.poke m cursor v)

/-- The cell `M[a]` of a state; meaningful for the addresses that exist, 0..255. -/
def State.byteAt (s : State) (a : Nat) : Byte := Memory.read s.mem a

/-- `M[a] <- v`. -/
def State.setByte (s : State) (a : Nat) (v : Byte) : State := { s with mem := Memory.poke s.mem a v }

/-! ## Causes of faults (60_exceptions.md Table E) -/

/-- `OutOfRangeAddress(memory, addr)`, code 1. -/
def causeMemory (addr : Nat) : FaultCause := ⟨.outOfRangeAddress .memory, some addr⟩

/-- `OutOfRangeAddress(register, i)`, code 2. -/
def causeRegister (i : Byte) : FaultCause := ⟨.outOfRangeAddress .register, some i.toNat⟩

/-- `OutOfRangeAddress(stack, v)`, code 3; `v` is the value that would have been written, -1 or 256. -/
def causeStack (v : Int) : FaultCause := ⟨.outOfRangeAddress .stack, some v⟩

/-- `OperandOverlap(addr)`, code 4. -/
def causeOverlap (addr : Nat) : FaultCause := ⟨.operandOverlap, some addr⟩

/-- `ArithmeticOverflow(r)`, code 5; `r` is the exact result. -/
def causeOverflow (r : Nat) : FaultCause := ⟨.arithmeticOverflow, some r⟩

/-! ## The memory controller (20_memory.md R54) -/

/-- `MemRead(addr, 1)` (R56). -/
def memRead (s : State) (addr : Nat) : Except FaultCause Byte :=
  if addr > 255 then .error (causeMemory addr) else .ok (s.byteAt addr)

/-- `MemWrite(addr, 1, v)` (R57). -/
def memWrite (s : State) (addr : Nat) (v : Byte) : Except FaultCause State :=
  if addr > 255 then .error (causeMemory addr) else .ok (s.setByte addr v)

/-! ## Registers (10_state.md R29) -/

/-- `x[r]`. -/
def State.reg (s : State) (r : RegName) : Byte := s.x[r]

/-- `x[r] <- v`. -/
def State.setReg (s : State) (r : RegName) (v : Byte) : State := { s with x := s.x.set r v }

/-- `sp`, another name for `x[7]` (00_scope.md R13). -/
def State.sp (s : State) : Byte := s.reg Config.spIndex

/-- A write of `sp` writes `x[7]` (R13). -/
def State.setSp (s : State) (v : Byte) : State := s.setReg Config.spIndex v

/-- `SpDec()` (20_memory.md R60): exact decrement, then the range check. -/
def spDec (s : State) : Except FaultCause State :=
  let v : Int := (s.sp.toNat : Int) - 1
  if v < 0 then .error (causeStack v) else .ok (s.setSp (BitVec.ofInt 8 v))

/-- `SpInc()` (R60): exact increment of the `x[7]` it finds, then the range check. -/
def spInc (s : State) : Except FaultCause State :=
  let v : Int := (s.sp.toNat : Int) + 1
  if v > 255 then .error (causeStack v) else .ok (s.setSp (BitVec.ofInt 8 v))

/-! ## Program counter and output -/

/-- `pc <- target` (00_scope.md R17). -/
def State.setPc (s : State) (target : Nat) : State := { s with pc := target }

/-- `pc <- pc + n`; the counter does not wrap (10_state.md R35). -/
def State.advance (s : State) (n : Nat) : State := s.setPc (s.pc + n)

/-- `Emit(v)` (00_scope.md R20, 10_state.md R44). -/
def State.emit (s : State) (v : Byte) : State := { s with out := s.out ++ [v] }

/-! ## Taking a fault (60_exceptions.md R223, R230) -/

/-- Fault entry. `s` is the state BEFORE the step, so every write the step has made is discarded; only the record is
written, with the step's opcode and `pc`. -/
def takeFault (s : State) (opcode : Option Byte) (e : FaultCause) : State :=
  { s with fault := some { kind := e.kind, detail := e.detail, opcode := opcode, pc := s.pc } }

/-- The end of a handler that started in `s` with opcode `op`: its writes are committed, or the first check that failed
is taken as a fault (R114, R227). -/
def commit (s : State) (op : Byte) : Except FaultCause State → Host.Outcome State Fault Refusal
  | .ok t => .next t
  | .error e => .next (takeFault s (some op) e)

end Sys2Proof.Machine
end

