-- ==== Sys2Proof/Machine/Operands.lean ====
section
/-! DEFINITION. The operand forms. There are two (30_encoding.md R82 to R84): a register index, checked here, and LDI's
immediate, which is the whole operand byte used as it stands (R83) and so needs no operation. No instruction has an
address operand (R84). -/

namespace Sys2Proof.Machine

open Sys2Proof

/-- `CheckReg(i)` (00_scope.md R14): the whole operand byte must name a register; it is never masked. -/
def checkReg (i : Byte) : Except FaultCause RegName :=
  if h : i.toNat < Config.numRegs then .ok ⟨i.toNat, h⟩ else .error (causeRegister i)

end Sys2Proof.Machine
end

