-- ==== Sys2Proof/Machine/Arith.lean ====
section
/-! DEFINITION. The ALU and its two instructions, MUL and ADD (42_alu.md). -/

namespace Sys2Proof.Machine

open Sys2Proof

/-- The operation select of the ALU, which has two values (R151). -/
inductive AluOp where
  | add
  | mul
  deriving DecidableEq, Repr

/-- The exact result of an operation on unsigned operands (R152, R153). -/
def aluExact (op : AluOp) (p q : Byte) : Nat :=
  match op with
  | .add => p.toNat + q.toNat
  | .mul => p.toNat * q.toNat

/-- `Alu(op, p, q)` (R152): under `wrap` the exact result mod 256, under `fault` the exact result or
`ArithmeticOverflow`. -/
def alu (policy : Config.AluOverflow) (op : AluOp) (p q : Byte) : Except FaultCause Byte :=
  match policy with
  | .wrap => .ok (BitVec.ofNat 8 (aluExact op p q % 256))
  | .fault =>
    if aluExact op p q > 255 then .error (causeOverflow (aluExact op p q))
    else .ok (BitVec.ofNat 8 (aluExact op p q))

/-- What MUL and ADD share (R157, R164): `CheckReg(a); CheckReg(b); x[a] <- Alu(op, x[a], x[b])`, then the advance. -/
def aluStep (op : AluOp) (a b : Byte) (n : Nat) (s : State) : Except FaultCause State := do
  let r ← checkReg a
  let q ← checkReg b
  let v ← alu s.params.aluOverflow op (s.reg r) (s.reg q)
  return (s.setReg r v).advance n

/-- MUL (R157): the program counter advances by 3. -/
def execMul (a b : Byte) (s : State) : Host.Outcome State Fault Refusal :=
  commit s opMul (aluStep .mul a b 3 s)

/-- ADD (R164): the program counter advances by `ADD_PC_ADVANCE` (R165). -/
def execAdd (a b : Byte) (s : State) : Host.Outcome State Fault Refusal :=
  commit s opAdd (aluStep .add a b s.params.addPcAdvance.bytes s)

end Sys2Proof.Machine
end

