-- ==== Sys2Proof/Machine/Control.lean ====
section
/-! DEFINITION. CALL and RET (44_call_ret.md), the only instructions that transfer control (R210). -/

namespace Sys2Proof.Machine

open Sys2Proof

/-- `OverlapCheck()` (R197): the stack pointer `SpDec` has just produced must not be the address of CALL's own operand
byte, `operand`. -/
def overlapCheck (s : State) (operand : Nat) : Except FaultCause Unit :=
  if s.sp.toNat = operand then .error (causeOverlap operand) else .ok ()

/-- CALL (R196): `CheckReg(a); SpDec(); OverlapCheck(); MemWrite(x[7], 1, pc + 2); pc <- x[a]`; the target is read after
the push. `pc + 2` is a byte in every step, because the fetch succeeded (R198; log entry 8). -/
def execCall (a : Byte) (s : State) : Host.Outcome State Fault Refusal :=
  commit s opCall do
    let r ← checkReg a
    let t ← spDec s
    overlapCheck t (s.pc + 1)
    let u ← memWrite t t.sp.toNat (BitVec.ofNat 8 (s.pc + 2))
    return u.setPc (u.reg r).toNat

/-- RET (R205): `CheckReg(a); t <- MemRead(x[7], 1); pc <- t; x[a] <- t; SpInc()`; `SpInc` reads `x[7]` after the write of
`x[a]`, and the named register keeps the return address (R207). -/
def execRet (a : Byte) (s : State) : Host.Outcome State Fault Refusal :=
  commit s opRet do
    let r ← checkReg a
    let t ← memRead s s.sp.toNat
    spInc ((s.setPc t.toNat).setReg r t)

end Sys2Proof.Machine
end

