-- ==== Sys2Proof/Machine/Flags.lean ====
section
/-! DEFINITION. The running flag, which is the only flag (10_state.md R37), and the status derived from it and from the
fault record (R41). No instruction computes a condition code, because there is none. -/

namespace Sys2Proof.Machine

open Sys2Proof

/-- `running <- false`, which only HLT does (R38). -/
def State.clearRunning (s : State) : State := { s with running := false }

/-- The engine status (R41). -/
inductive Status where
  | running
  | halted
  | faulted
  deriving DecidableEq, Repr

/-- The status of a state: `Faulted` when a fault is recorded, else by the running flag (R41). -/
def State.status (s : State) : Status :=
  match s.fault with
  | some _ => .faulted
  | none => if s.running then .running else .halted

end Sys2Proof.Machine
end

