-- ==== Sys2Proof/Machine/LoadPrintHalt.lean ====
section
/-! DEFINITION. LDI, PRN and HLT (41_ldi_prn_hlt.md), and the skip of an unrecognized opcode (30_encoding.md R93). -/

namespace Sys2Proof.Machine

open Sys2Proof

/-- LDI (R131): `CheckReg(a); x[a] <- b; pc <- pc + 3`. -/
def execLdi (a i : Byte) (s : State) : Host.Outcome State Fault Refusal :=
  commit s opLdi do
    let r ← checkReg a
    return (s.setReg r i).advance 3

/-- PRN (R136): `CheckReg(a); Emit(x[a]); pc <- pc + 2`. -/
def execPrn (a : Byte) (s : State) : Host.Outcome State Fault Refusal :=
  commit s opPrn do
    let r ← checkReg a
    return (s.emit (s.reg r)).advance 2

/-- HLT (R141): `running <- false`; the program counter stays at the HLT. -/
def execHlt (s : State) : Host.Outcome State Fault Refusal :=
  commit s opHlt (.ok s.clearRunning)

/-- The skip (R93): `pc <- pc + 1` and nothing else. It is silent, not a fault (60_exceptions.md R225). -/
def execUnrecognized (op : Byte) (s : State) : Host.Outcome State Fault Refusal :=
  commit s op (.ok (s.advance 1))

end Sys2Proof.Machine
end

