-- ==== Sys2Proof/Machine/Stack.lean ====
section
/-! DEFINITION. PUSH and POP (43_stack.md). Each statement sees the writes of the statements before it (00_scope.md R18),
which is what fixes the results for register 7. -/

namespace Sys2Proof.Machine

open Sys2Proof

/-- PUSH (R176): `CheckReg(a); SpDec(); MemWrite(x[7], 1, x[a]); pc <- pc + 2`; `x[a]` is read after the decrement. -/
def execPush (a : Byte) (s : State) : Host.Outcome State Fault Refusal :=
  commit s opPush do
    let r ← checkReg a
    let t ← spDec s
    let u ← memWrite t t.sp.toNat (t.reg r)
    return u.advance 2

/-- POP (R183): `CheckReg(a); x[a] <- MemRead(x[7], 1); SpInc(); pc <- pc + 2`; `SpInc` reads `x[7]` after the load. -/
def execPop (a : Byte) (s : State) : Host.Outcome State Fault Refusal :=
  commit s opPop do
    let r ← checkReg a
    let v ← memRead s s.sp.toNat
    let t ← spInc (s.setReg r v)
    return t.advance 2

end Sys2Proof.Machine
end

