-- ==== Sys2Proof/Machine/Fetch.lean ====
section
/-! DEFINITION. Fetching the three-byte window (40_engine.md R107, R108). -/

namespace Sys2Proof.Machine

open Sys2Proof

/-- Why a fetch fails: the cause, and the opcode its record carries. -/
structure FetchFault where
  cause : FaultCause
  opcode : Option Byte
  deriving DecidableEq, Repr

/-- The window check for k = 0, 1, 2 in that order, the first failing k being the one reported (R107); then the three
reads (R108). The opcode is none when k = 0 fails and `M[pc]` when k = 1 or k = 2 fails (60_exceptions.md R230). -/
def fetch (s : State) : Except FetchFault (Byte × Byte × Byte) :=
  if s.pc > 255 then .error ⟨causeMemory s.pc, none⟩
  else if s.pc + 1 > 255 then .error ⟨causeMemory (s.pc + 1), some (s.byteAt s.pc)⟩
  else if s.pc + 2 > 255 then .error ⟨causeMemory (s.pc + 2), some (s.byteAt s.pc)⟩
  else .ok (s.byteAt s.pc, s.byteAt (s.pc + 1), s.byteAt (s.pc + 2))

/-- Store bytes at ascending addresses from `a`, leaving out any address that does not exist. -/
def State.storeBytes (s : State) (a : Nat) : List Byte → State
  | [] => s
  | v :: vs => State.storeBytes (if a > 255 then s else s.setByte a v) (a + 1) vs

end Sys2Proof.Machine
end

