-- ==== Sys2Proof/Machine/Step.lean ====
section
/-! DEFINITION. One step of the block (40_engine.md R105, R115), and the placing of one instruction where the next step
fetches it. -/

namespace Sys2Proof.Machine

open Sys2Proof

/-- The step. It is performed only while the status is `Running`; a block that has stopped answers by name that it performs
none (R105, R113; 60_exceptions.md R223). A failing window check is taken as a fault (R107, R114), else the decoded
instruction runs. -/
def step (s : State) : Host.Outcome State Fault Refusal :=
  match s.fault with
  | some r => .fault (.faulted r)
  | none =>
    match s.running with
    | false => .fault .halted
    | true =>
      match fetch s with
      | .error f => .next (takeFault s f.opcode f.cause)
      | .ok (op, a, b) => exec (decodeWindow op a b) s

/-- `s` with the three window bytes of a table word stored at its program counter (log entry 13). -/
def State.withFetchWord (s : State) (nbits w : Nat) : State := s.storeBytes s.pc (tableBytes nbits w)

end Sys2Proof.Machine
end

