-- ==== Sys2Proof/Machine/Ports.lean ====
section
/-! DEFINITION. The block's interfaces to the host (10_state.md R47, Table H): the launch, the trace port and the status
port. The output port is State.out. None of them acts during a step. -/

namespace Sys2Proof.Machine

open Sys2Proof

/-- Launch (70_reset_and_hazards.md R255, R258): construct the block, then let the loader write the image from address 0
in order. An image of more than 256 bytes is refused, and the block does not run. -/
def State.launch (params : Config.Params) (program : List Byte) : Host.Outcome State Fault Refusal :=
  if program.length > Config.memSize then .refused (.imageTooLong program.length)
  else .next { State.constructed params with mem := Memory.loadFrom Config.loadBase program [] }

/-- What the debug/trace port shows: `pc`, `M[0..255]` and `x[0..7]` (60_exceptions.md R247). -/
structure TraceView where
  pc : Nat
  mem : List Byte
  x : Vector Byte 8
  deriving DecidableEq, Repr

/-- A read through the trace port; it changes no state (10_state.md R48). -/
def State.traceRead (s : State) : TraceView :=
  { pc := s.pc, mem := (List.range Config.memSize).map s.byteAt, x := s.x }

/-- The fault record as the status port gives it: the five fields of 60_exceptions.md R230 (10_state.md R40, R47.4). -/
structure FaultView where
  code : Nat
  kind : FaultKind
  detail : Option Int
  opcode : Option Byte
  pc : Nat
  deriving DecidableEq, Repr

/-- A record with its code written out (Table E; log entry 10). -/
def FaultRecord.view (r : FaultRecord) : FaultView :=
  { code := r.code, kind := r.kind, detail := r.detail, opcode := r.opcode, pc := r.pc }

/-- How a run stands at the status port. Every fault appears as one fatal outcome that carries the opcode of the step
(60_exceptions.md R222); the opcode is none where the record has none (R230; log entry 15). -/
inductive PortOutcome where
  | running
  | halted
  | unknownInstructionFatal (opcode : Option Byte)
  deriving DecidableEq, Repr

/-- The outcome a state shows (R222). -/
def State.portOutcome (s : State) : PortOutcome :=
  match s.fault with
  | some r => .unknownInstructionFatal r.opcode
  | none => if s.running then .running else .halted

/-- What a read of the status port gives: the status of 10_state.md R41, the record of R40, and the outcome as which a
fault shows (R47.4, Table H "Status read"). -/
structure StatusView where
  status : Status
  outcome : PortOutcome
  fault : Option FaultView
  deriving DecidableEq, Repr

/-- A read of the status port; it changes no state (Table H). -/
def State.statusPort (s : State) : StatusView :=
  { status := s.status, outcome := s.portOutcome, fault := s.fault.map FaultRecord.view }

end Sys2Proof.Machine
end

