-- ==== Sys2Proof/Safety.lean ====
section
/-! DEFINITION. What claims are stated in: the invariant of every reachable state, the observation of a run
(40_engine.md R116), and what it is for a run never to fault. -/

namespace Sys2Proof.Machine

open Sys2Proof

/-- A record is one that 60_exceptions.md Table E and R230 allow: the kind, its detail, the opcodes that raise it, and the
program counter. Code 6 is never raised (R228). -/
def FaultRecord.tableE (r : FaultRecord) : Bool :=
  match r.kind, r.detail with
  | .outOfRangeAddress .memory, some d =>
    decide (d = 256) && decide (254 ≤ r.pc ∧ r.pc ≤ 256) && (r.opcode.isNone == decide (r.pc = 256))
  | .outOfRangeAddress .register, some d =>
    decide (8 ≤ d ∧ d ≤ 255) &&
      [opLdi, opPrn, opMul, opAdd, opPush, opPop, opCall, opRet].any (fun op => r.opcode == some op)
  | .outOfRangeAddress .stack, some d =>
    (decide (d = -1) && (r.opcode == some opPush || r.opcode == some opCall)) ||
      (decide (d = 256) && (r.opcode == some opPop || r.opcode == some opRet))
  | .operandOverlap, some d => decide (d = r.pc + 1) && (r.opcode == some opCall)
  | .arithmeticOverflow, some d =>
    decide (256 ≤ d ∧ d ≤ 65025) && (r.opcode == some opMul || r.opcode == some opAdd)
  | .unsupportedArithmeticOperation, _ => false
  | _, none => false

/-- If a fault is recorded, it is one of Table E, it was raised at the program counter the state still has, with the opcode
that stands there (none where the counter is beyond memory), and the running flag is still true (10_state.md R41). -/
def State.faultOk (s : State) : Bool :=
  match s.fault with
  | none => true
  | some r =>
    s.running && r.tableE && decide (r.pc = s.pc) &&
      decide (r.opcode = if s.pc > 255 then none else some (s.byteAt s.pc))

/-- The invariant of the block: memory is canonical, the program counter is in the range 0..256 that 10_state.md R33 says
it can reach, and a recorded fault is one the spec allows. -/
abbrev State.Inv (s : State) : Prop := s.mem.wf = true ∧ s.pc ≤ 256 ∧ s.faultOk = true

/-- `s` with the record of a fault its instruction raised, and nothing else changed (60_exceptions.md R223, R230). -/
def State.withFault (s : State) (kind : FaultKind) (detail : Int) (opcode : Byte) : State :=
  { s with fault := some { kind := kind, detail := some detail, opcode := some opcode, pc := s.pc } }

/-- What the host may take from a run (R116). After a fault the registers and memory are no result. -/
inductive Observation where
  /-- The run has not left `Running`; a bounded or killed run is this, never a halt (92_eei_decisions.md D21). -/
  | unfinished (s : State)
  /-- The run halted: the final output, registers, memory and the address of the HLT. -/
  | halted (out : List Byte) (x : Vector Byte 8) (mem : Memory) (pc : Nat)
  /-- The run faulted: the output up to the fault, and the record. -/
  | faulted (out : List Byte) (r : FaultRecord)
  deriving DecidableEq, Repr

/-- The observation of a state. -/
def State.observe (s : State) : Observation :=
  match s.fault with
  | some r => .faulted s.out r
  | none => if s.running then .unfinished s else .halted s.out s.x s.mem s.pc

/-- The observation of a run of at most `k` steps. -/
def runFor : Nat → State → Observation
  | 0, s => s.observe
  | k + 1, s =>
    match step s with
    | .next t => runFor k t
    | .fault _ => s.observe
    | .refused _ => s.observe

/-- `k` steps, stopping at the first fault or refusal: the host's Core.run on this machine (Laws, stepN_eq_run). -/
def stepN : Nat → State → Host.Outcome State Fault Refusal
  | 0, s => .next s
  | k + 1, s =>
    match step s with
    | .next t => stepN k t
    | .fault f => .fault f
    | .refused r => .refused r

/-- A run from `s` that never faults, however long it is watched. -/
def State.NeverFaults (s : State) : Prop := ∀ k out r, runFor k s ≠ .faulted out r

/-- The registers an instruction may write (10_state.md Table RW). -/
def mayWriteReg (i : Instr) (r : RegName) : Bool :=
  match i with
  | .ldi a _ => decide (r.val = a.toNat)
  | .prn _ => false
  | .hlt => false
  | .mul a _ => decide (r.val = a.toNat)
  | .add a _ => decide (r.val = a.toNat)
  | .push _ => decide (r.val = 7)
  | .pop a => decide (r.val = a.toNat) || decide (r.val = 7)
  | .call _ => decide (r.val = 7)
  | .ret a => decide (r.val = a.toNat) || decide (r.val = 7)
  | .unrecognized _ => false

/-- The fixed amount an instruction advances the program counter by, or none where it assigns it (10_state.md Table PCU). -/
def fixedAdvance (i : Instr) (params : Config.Params) : Option Nat :=
  match i with
  | .ldi _ _ => some 3
  | .prn _ => some 2
  | .hlt => some 0
  | .mul _ _ => some 3
  | .add _ _ => some (if params.addPcAdvance = .three then 3 else 0)
  | .push _ => some 2
  | .pop _ => some 2
  | .call _ => none
  | .ret _ => none
  | .unrecognized _ => some 1

/-- The effects of instructions executed one after another, as the spec's laws of pairs and sequences speak of them
(43_stack.md R186, R187; 44_call_ret.md R212). -/
def execAll : List Instr → State → Host.Outcome State Fault Refusal
  | [], s => .next s
  | i :: is, s =>
    match exec i s with
    | .next t => execAll is t
    | .fault f => .fault f
    | .refused r => .refused r

end Sys2Proof.Machine
end

