-- ==== Sys2Proof/Certificates/Slice0/Obligations.lean ====
section
/-! DEFINITION. The statements for the provers. Each docstring names the rule of spec/ it formalises, and says where a clause
is the spec's own decision (92_eei_decisions.md) or a choice of this model (a log entry). -/

open Sys2Proof Sys2Proof.Machine

/-! ## Reset, launch and ports -/

/-- 70_reset_and_hazards.md R255: the state after construction and load, for every image of at most 256 bytes and every
setting of the switches; cells the image does not cover hold `INIT_MEM`. -/
def Obligations.LaunchGivesTheResetState : Prop :=
  ∀ (params : Config.Params) (program : List Byte), program.length ≤ 256 →
    ∃ s, State.launch params program = .next s ∧
      (∀ r : RegName, r.val ≤ 6 → s.reg r = 0) ∧ s.reg 7 = 244 ∧ s.pc = 0 ∧ s.running = true ∧ s.fault = none ∧
      s.status = .running ∧ s.out = [] ∧ s.params = params ∧
      ∀ a, a ≤ 255 → s.byteAt a = if h : a < program.length then program[a] else Config.initMem a

/-- The model's State.reset (log entry 5: the launch of the empty image under the defaults of Table P) holds the values of
10_state.md Table S. -/
def Obligations.ResetHoldsTableS : Prop :=
  State.launch Config.Params.default [] = .next State.reset ∧
    State.reset.x = #v[0, 0, 0, 0, 0, 0, 0, 244] ∧ State.reset.pc = 0 ∧ State.reset.running = true ∧
    State.reset.fault = none ∧ State.reset.out = [] ∧
    State.reset.params.addPcAdvance.bytes = 3 ∧ State.reset.params.aluOverflow = .wrap ∧
    ∀ a, State.reset.byteAt a = Config.initMem a

/-- 70_reset_and_hazards.md section 2 (R258, D19): a longer image is refused at launch. -/
def Obligations.LongImageIsRefusedAtLaunch : Prop :=
  ∀ (params : Config.Params) (program : List Byte), 256 < program.length →
    State.launch params program = .refused (.imageTooLong program.length)

/-- 10_state.md R41: the status is derived from `running` and `fault`. -/
def Obligations.StatusIsDerivedFromRunningAndFault : Prop :=
  ∀ s : State,
    (s.status = .running ↔ s.running = true ∧ s.fault = none) ∧
    (s.status = .halted ↔ s.running = false ∧ s.fault = none) ∧
    (s.status = .faulted ↔ s.fault ≠ none)

/-- 60_exceptions.md R222: every fault a step takes shows at the status port as one fatal outcome with the step's opcode,
beside the record, which keeps the kind, code and detail. With the window check failing at k = 0 there is no opcode (R230; log entry 15). -/
def Obligations.EveryFaultShowsAsUnknownInstruction : Prop :=
  ∀ s t r, step s = .next t → t.fault = some r →
    t.statusPort = {
      status := .faulted
      outcome := .unknownInstructionFatal (if s.pc ≤ 255 then some (s.byteAt s.pc) else none)
      fault := some { code := r.kind.code, kind := r.kind, detail := r.detail,
                      opcode := if s.pc ≤ 255 then some (s.byteAt s.pc) else none, pc := s.pc } }

/-- 60_exceptions.md R247: the trace port shows `pc`, every cell and every register. -/
def Obligations.TracePortShowsPcMemoryAndRegisters : Prop :=
  ∀ s : State, s.traceRead.pc = s.pc ∧ s.traceRead.mem.length = 256 ∧
    (∀ a, a < 256 → s.traceRead.mem[a]? = some (s.byteAt a)) ∧ ∀ r : RegName, s.traceRead.x[r] = s.reg r

/-! ## Encoding -/

/-- Words written out from 30_encoding.md Table O and Table F decode to the instructions they stand for. -/
def Obligations.KnownWordsDecode : Prop :=
  decode [0x82, 0x03, 0x2A] = .ok (.ldi 3 42, []) ∧
  decode [0x47, 0x07, 0xFF] = .ok (.prn 7, [0xFF]) ∧
  decode [0x01, 0xFF, 0xFF] = .ok (.hlt, [0xFF, 0xFF]) ∧
  decode [0xA2, 0x00, 0x01] = .ok (.mul 0 1, []) ∧
  decode [0xA0, 0x00, 0x01] = .ok (.add 0 1, []) ∧
  decode [0x45, 0x07, 0x01] = .ok (.push 7, [0x01]) ∧
  decode [0x46, 0x02, 0x01] = .ok (.pop 2, [0x01]) ∧
  decode [0x50, 0x01, 0x01] = .ok (.call 1, [0x01]) ∧
  decode [0x11, 0x82, 0x01] = .ok (.ret 0x82, [0x01]) ∧
  decode [0xA1, 0x47, 0x09] = .ok (.unrecognized 0xA1, [0x47, 0x09])

/-- 30_encoding.md R86: the whole opcode byte is compared with the nine values of Table O; any other byte is the skip. -/
def Obligations.DispatchFollowsTableO : Prop :=
  ∀ op a b : Byte,
    (op = 130 → decodeWindow op a b = .ldi a b) ∧ (op = 71 → decodeWindow op a b = .prn a) ∧
    (op = 1 → decodeWindow op a b = .hlt) ∧ (op = 162 → decodeWindow op a b = .mul a b) ∧
    (op = 160 → decodeWindow op a b = .add a b) ∧ (op = 69 → decodeWindow op a b = .push a) ∧
    (op = 70 → decodeWindow op a b = .pop a) ∧ (op = 80 → decodeWindow op a b = .call a) ∧
    (op = 17 → decodeWindow op a b = .ret a) ∧
    (op ∉ [130, 71, 1, 162, 160, 69, 70, 80, 17] → decodeWindow op a b = .unrecognized op)

/-- Decode and encode agree, for every well-formed instruction, at every value of every operand, whatever bytes follow as
long as the three-byte window exists (30_encoding.md sections 1 to 3). -/
def Obligations.DecodeOfEncodeIsTheInstruction : Prop :=
  ∀ (i : Instr) (rest : List Byte), i.WellFormed → 3 ≤ (encode i ++ rest).length →
    decode (encode i ++ rest) = .ok (i, rest)

/-- The other direction: every window decodes to a well-formed instruction, whose encoding is the window's first bytes, as
many as its length (30_encoding.md R80, R95). -/
def Obligations.EncodeOfDecodeIsTheWindowsHead : Prop :=
  ∀ op a b : Byte, (decodeWindow op a b).WellFormed ∧
    encode (decodeWindow op a b) = [op, a, b].take (decodeWindow op a b).length

/-- 30_encoding.md R89: the length is known from the opcode byte alone, and it is that of Table L. -/
def Obligations.OpcodeAloneFixesTheLength : Prop :=
  ∀ op a b a' b' : Byte, (decodeWindow op a b).length = (decodeWindow op a' b').length ∧
    (decodeWindow op a b).length =
      if op ∈ [130, 162, 160] then 3 else if op ∈ [71, 69, 70, 80, 17] then 2 else 1

/-- 30_encoding.md section 1 (R85): windows that agree on the bytes an instruction uses decode to the same instruction. -/
def Obligations.UnusedOperandBytesHaveNoEffect : Prop :=
  ∀ op a b a' b' : Byte,
    [op, a, b].take (decodeWindow op a b).length = [op, a', b'].take (decodeWindow op a b).length →
    decodeWindow op a' b' = decodeWindow op a b

/-- 30_encoding.md Table A: the bytes of each assembly form; RET is not assembled without its register (R98). -/
def Obligations.AssemblyFormsGiveTableABytes : Prop :=
  (∀ a i : Nat, a ≤ 7 → i ≤ 255 →
      assemble .LDI [.reg a, .imm i] = some [0x82, BitVec.ofNat 8 a, BitVec.ofNat 8 i]) ∧
  (∀ a b : Nat, a ≤ 7 → b ≤ 7 →
      assemble .MUL [.reg a, .reg b] = some [0xA2, BitVec.ofNat 8 a, BitVec.ofNat 8 b] ∧
      assemble .ADD [.reg a, .reg b] = some [0xA0, BitVec.ofNat 8 a, BitVec.ofNat 8 b]) ∧
  (∀ a : Nat, a ≤ 7 →
      assemble .PRN [.reg a] = some [0x47, BitVec.ofNat 8 a] ∧ assemble .PUSH [.reg a] = some [0x45, BitVec.ofNat 8 a] ∧
      assemble .POP [.reg a] = some [0x46, BitVec.ofNat 8 a] ∧ assemble .CALL [.reg a] = some [0x50, BitVec.ofNat 8 a] ∧
      assemble .RET [.reg a] = some [0x11, BitVec.ofNat 8 a]) ∧
  assemble .HLT [] = some [0x01] ∧ assemble .RET [] = none

/-! ## The step -/

/-- 40_engine.md R108, R109: with a valid window, the step latches the three bytes and runs what they decode to, the skip
where the opcode is in no row of Table O, and adds nothing of its own (R111). -/
def Obligations.StepRunsTheDecodedInstruction : Prop :=
  ∀ s : State, s.running = true → s.fault = none → s.pc ≤ 253 →
    step s = exec (decodeWindow (s.byteAt s.pc) (s.byteAt (s.pc + 1)) (s.byteAt (s.pc + 2))) s ∧
    (∀ i rest, decode [s.byteAt s.pc, s.byteAt (s.pc + 1), s.byteAt (s.pc + 2)] = .ok (i, rest) → step s = exec i s) ∧
    (s.byteAt s.pc ∉ recognizedOpcodes → step s = exec (.unrecognized (s.byteAt s.pc)) s)

/-- 40_engine.md R107 (D5, D9): a window that leaves memory faults, whatever the opcode, with the first address that fails;
the opcode is none when that is the first byte's. -/
def Obligations.FetchBeyondMemoryFaults : Prop :=
  ∀ s : State, s.running = true → s.fault = none →
    ((s.pc = 254 ∨ s.pc = 255) → step s = .next { s with
        fault := some { kind := .outOfRangeAddress .memory, detail := some 256,
                        opcode := some (s.byteAt s.pc), pc := s.pc } }) ∧
    (255 < s.pc → step s = .next { s with
        fault := some { kind := .outOfRangeAddress .memory, detail := some (s.pc : Int), opcode := none, pc := s.pc } }) ∧
    (s.pc ≤ 253 → ∃ w, fetch s = .ok w)

/-- 40_engine.md section 1 (R105, R115, R118): a step is performed exactly while the status is Running, and then it always
ends in a next state. That a stopped block answers by name is the model's choice (log entry 4). -/
def Obligations.StepIsPerformedExactlyWhileRunning : Prop :=
  ∀ s : State,
    (s.status = .running → ∃ t, step s = .next t) ∧
    (s.status = .halted → step s = .fault .halted) ∧
    (∀ r, s.fault = some r → step s = .fault (.faulted r))

/-! ## What each instruction does, and where it faults -/

/-- 41_ldi_prn_hlt.md R131, R132 (D6): the immediate goes into the register; an index above 7 faults and writes nothing. -/
def Obligations.LdiLoadsTheImmediate : Prop :=
  ∀ (s : State) (a v : Byte),
    (∀ h : a.toNat < 8, exec (.ldi a v) s = .next { s with x := s.x.set a.toNat v h, pc := s.pc + 3 }) ∧
    (7 < a.toNat → exec (.ldi a v) s = .next (s.withFault (.outOfRangeAddress .register) a.toNat 0x82))

/-- 41_ldi_prn_hlt.md R136, R137 (D6): the register's value is appended to the output; an index above 7 faults and emits
nothing. -/
def Obligations.PrnEmitsTheRegister : Prop :=
  ∀ (s : State) (a : Byte),
    (∀ h : a.toNat < 8, exec (.prn a) s = .next { s with out := s.out ++ [s.x[a.toNat]], pc := s.pc + 2 }) ∧
    (7 < a.toNat → exec (.prn a) s = .next (s.withFault (.outOfRangeAddress .register) a.toNat 0x47))

/-- 41_ldi_prn_hlt.md R141: the flag falls, the program counter stays, and no further step is performed. -/
def Obligations.HltClearsRunningAndStops : Prop :=
  ∀ s : State, exec .hlt s = .next { s with running := false } ∧ ∀ t, step { s with running := false } ≠ .next t

/-- 42_alu.md R157, R158 (D2, D6, D27): the low byte of the product, or, in this order, a fault on index a, on index b, or,
under the policy `fault`, on a product above 255; a fault writes nothing. -/
def Obligations.MulWritesTheProduct : Prop :=
  ∀ (s : State) (a b : Byte),
    (7 < a.toNat → exec (.mul a b) s = .next (s.withFault (.outOfRangeAddress .register) a.toNat 0xA2)) ∧
    ∀ ha : a.toNat < 8,
      (7 < b.toNat → exec (.mul a b) s = .next (s.withFault (.outOfRangeAddress .register) b.toNat 0xA2)) ∧
      ∀ hb : b.toNat < 8,
        (s.params.aluOverflow = .wrap ∨ s.x[a.toNat].toNat * s.x[b.toNat].toNat ≤ 255 →
          exec (.mul a b) s = .next { s with
            x := s.x.set a.toNat (BitVec.ofNat 8 (s.x[a.toNat].toNat * s.x[b.toNat].toNat % 256)) ha, pc := s.pc + 3 }) ∧
        (s.params.aluOverflow = .fault → 255 < s.x[a.toNat].toNat * s.x[b.toNat].toNat →
          exec (.mul a b) s = .next
            (s.withFault .arithmeticOverflow (s.x[a.toNat].toNat * s.x[b.toNat].toNat : Nat) 0xA2))

/-- 42_alu.md R164, R167 (D2, D3, D6, D27): the low byte of the sum, the program counter moving by `ADD_PC_ADVANCE`, or a
fault as for MUL. -/
def Obligations.AddWritesTheSum : Prop :=
  ∀ (s : State) (a b : Byte),
    (7 < a.toNat → exec (.add a b) s = .next (s.withFault (.outOfRangeAddress .register) a.toNat 0xA0)) ∧
    ∀ ha : a.toNat < 8,
      (7 < b.toNat → exec (.add a b) s = .next (s.withFault (.outOfRangeAddress .register) b.toNat 0xA0)) ∧
      ∀ hb : b.toNat < 8,
        (s.params.aluOverflow = .wrap ∨ s.x[a.toNat].toNat + s.x[b.toNat].toNat ≤ 255 →
          exec (.add a b) s = .next { s with
            x := s.x.set a.toNat (BitVec.ofNat 8 ((s.x[a.toNat].toNat + s.x[b.toNat].toNat) % 256)) ha,
            pc := s.pc + if s.params.addPcAdvance = .three then 3 else 0 }) ∧
        (s.params.aluOverflow = .fault → 255 < s.x[a.toNat].toNat + s.x[b.toNat].toNat →
          exec (.add a b) s = .next
            (s.withFault .arithmeticOverflow (s.x[a.toNat].toNat + s.x[b.toNat].toNat : Nat) 0xA0))

/-- 43_stack.md R176, R177 (D6, D7, D11): the stack pointer goes down by one and the register, read after that, is stored
there; an index above 7, or else a stack pointer of 0, faults and writes nothing. -/
def Obligations.PushStoresBelowTheStackPointer : Prop :=
  ∀ (s : State) (a : Byte),
    (7 < a.toNat → exec (.push a) s = .next (s.withFault (.outOfRangeAddress .register) a.toNat 0x45)) ∧
    ∀ h : a.toNat < 8,
      (s.x[7] = 0 → exec (.push a) s = .next (s.withFault (.outOfRangeAddress .stack) (-1) 0x45)) ∧
      (s.x[7] ≠ 0 → ∃ t, exec (.push a) s = .next t ∧ t.x = s.x.set 7 (s.x[7] - 1) ∧ t.pc = s.pc + 2 ∧
        t.running = s.running ∧ t.fault = s.fault ∧ t.out = s.out ∧ t.params = s.params ∧
        ∀ c, t.byteAt c =
          if c = (s.x[7] - 1).toNat then (if a.toNat = 7 then s.x[7] - 1 else s.x[a.toNat]) else s.byteAt c)

/-- 43_stack.md R183, R184 (D6, D7, D11): the register takes the byte at the stack pointer, then `x[7]` as it then stands
goes up by one, so that POP r7 leaves the loaded byte plus one; where that `x[7]` is 255 it faults and writes nothing. -/
def Obligations.PopLoadsThenIncrements : Prop :=
  ∀ (s : State) (a : Byte),
    (7 < a.toNat → exec (.pop a) s = .next (s.withFault (.outOfRangeAddress .register) a.toNat 0x46)) ∧
    ∀ h : a.toNat < 8,
      ((if a.toNat = 7 then s.byteAt s.x[7].toNat else s.x[7]) = 255 →
        exec (.pop a) s = .next (s.withFault (.outOfRangeAddress .stack) 256 0x46)) ∧
      ((if a.toNat = 7 then s.byteAt s.x[7].toNat else s.x[7]) ≠ 255 →
        exec (.pop a) s = .next { s with
          x := (s.x.set a.toNat (s.byteAt s.x[7].toNat) h).set 7
            ((if a.toNat = 7 then s.byteAt s.x[7].toNat else s.x[7]) + 1),
          pc := s.pc + 2 })

/-- 44_call_ret.md R196, R197, R198 (D6, D7, D10, D11, D27): the return address `pc + 2` goes below the stack pointer and
control to the register, read after the push; a push onto CALL's own operand byte faults, one onto any other byte does not.
The program counter is one a fetch accepts (R107). -/
def Obligations.CallPushesTheReturnAddressAndJumps : Prop :=
  ∀ (s : State) (a : Byte), s.pc ≤ 253 →
    (7 < a.toNat → exec (.call a) s = .next (s.withFault (.outOfRangeAddress .register) a.toNat 0x50)) ∧
    ∀ h : a.toNat < 8,
      (s.x[7] = 0 → exec (.call a) s = .next (s.withFault (.outOfRangeAddress .stack) (-1) 0x50)) ∧
      (s.x[7] ≠ 0 → (s.x[7] - 1).toNat = s.pc + 1 →
        exec (.call a) s = .next (s.withFault .operandOverlap (s.pc + 1 : Nat) 0x50)) ∧
      (s.x[7] ≠ 0 → (s.x[7] - 1).toNat ≠ s.pc + 1 →
        ∃ t, exec (.call a) s = .next t ∧ t.x = s.x.set 7 (s.x[7] - 1) ∧
          t.pc = (if a.toNat = 7 then s.x[7] - 1 else s.x[a.toNat]).toNat ∧
          t.running = s.running ∧ t.fault = s.fault ∧ t.out = s.out ∧ t.params = s.params ∧
          (t.byteAt (s.x[7] - 1).toNat).toNat = s.pc + 2 ∧
          ∀ c, c ≠ (s.x[7] - 1).toNat → t.byteAt c = s.byteAt c)

/-- 44_call_ret.md R205, R206 (D4, D6, D7, D11): control goes to the byte at the stack pointer, the named register takes a
copy of it, and `x[7]` as it then stands goes up by one; where that `x[7]` is 255 it faults and writes nothing. -/
def Obligations.RetJumpsToTheTopOfStack : Prop :=
  ∀ (s : State) (a : Byte),
    (7 < a.toNat → exec (.ret a) s = .next (s.withFault (.outOfRangeAddress .register) a.toNat 0x11)) ∧
    ∀ h : a.toNat < 8,
      ((if a.toNat = 7 then s.byteAt s.x[7].toNat else s.x[7]) = 255 →
        exec (.ret a) s = .next (s.withFault (.outOfRangeAddress .stack) 256 0x11)) ∧
      ((if a.toNat = 7 then s.byteAt s.x[7].toNat else s.x[7]) ≠ 255 →
        exec (.ret a) s = .next { s with
          x := (s.x.set a.toNat (s.byteAt s.x[7].toNat) h).set 7
            ((if a.toNat = 7 then s.byteAt s.x[7].toNat else s.x[7]) + 1),
          pc := (s.byteAt s.x[7].toNat).toNat })

/-- The skip's own effect, for the constructor alone (30_encoding.md section 4). -/
def Obligations.SkipAdvancesByOne : Prop :=
  ∀ (s : State) (op : Byte), exec (.unrecognized op) s = .next { s with pc := s.pc + 1 }

/-- 30_encoding.md R93 (D9): the 247 values, that a step at one of them changes the program counter and nothing else, and
that its three-byte fetch still faults where the window leaves memory. -/
def Obligations.UnrecognizedOpcodesAreSkippedSilently : Prop :=
  (∀ op : Byte, op ∉ recognizedOpcodes ↔
    op.toNat = 0 ∨ (0x02 ≤ op.toNat ∧ op.toNat ≤ 0x10) ∨ (0x12 ≤ op.toNat ∧ op.toNat ≤ 0x44) ∨
    (0x48 ≤ op.toNat ∧ op.toNat ≤ 0x4F) ∨ (0x51 ≤ op.toNat ∧ op.toNat ≤ 0x81) ∨
    (0x83 ≤ op.toNat ∧ op.toNat ≤ 0x9F) ∨ op.toNat = 0xA1 ∨ 0xA3 ≤ op.toNat) ∧
  ∀ s : State, s.running = true → s.fault = none → s.byteAt s.pc ∉ recognizedOpcodes →
    (s.pc ≤ 253 → step s = .next { s with pc := s.pc + 1 }) ∧
    (253 < s.pc → ∃ r, step s = .next { s with fault := some r } ∧ r.kind = .outOfRangeAddress .memory)

/-- 42_alu.md R152: the ALU under both policies. -/
def Obligations.AluFollowsTheOverflowPolicy : Prop :=
  ∀ p q : Byte,
    alu .wrap .add p q = .ok (BitVec.ofNat 8 ((p.toNat + q.toNat) % 256)) ∧
    alu .wrap .mul p q = .ok (BitVec.ofNat 8 (p.toNat * q.toNat % 256)) ∧
    alu .fault .add p q = (if p.toNat + q.toNat > 255
      then .error { kind := .arithmeticOverflow, detail := some ((p.toNat + q.toNat : Nat) : Int) }
      else .ok (BitVec.ofNat 8 (p.toNat + q.toNat))) ∧
    alu .fault .mul p q = (if p.toNat * q.toNat > 255
      then .error { kind := .arithmeticOverflow, detail := some ((p.toNat * q.toNat : Nat) : Int) }
      else .ok (BitVec.ofNat 8 (p.toNat * q.toNat)))

/-- 42_alu.md section 1 (R154), under `wrap`: both operations are commutative and associative, 0 is the identity of ADD, 1
the identity of MUL, and 0 absorbs in MUL. -/
def Obligations.WrappedArithmeticLaws : Prop :=
  ∀ op : AluOp, ∀ p q r : Byte,
    alu .wrap op p q = alu .wrap op q p ∧
    (alu .wrap op p q >>= fun v => alu .wrap op v r) = (alu .wrap op q r >>= fun v => alu .wrap op p v) ∧
    alu .wrap .add p 0 = .ok p ∧ alu .wrap .mul p 1 = .ok p ∧ alu .wrap .mul p 0 = .ok 0

/-! ## Faults -/

/-- 00_scope.md R14 and 30_encoding.md R82 (D6): an index up to 7 names its register; in a step at any of the eight opcodes with a register operand, the whole
first operand byte is the index; above 7 it is no decode error, is not masked, and faults before the register is read or
written. The same holds of the second operand byte of MUL and ADD. -/
def Obligations.RegisterIndexAboveSevenFaults : Prop :=
  (∀ i : Byte, (∀ h : i.toNat < 8, checkReg i = .ok ⟨i.toNat, h⟩) ∧
    (7 < i.toNat → checkReg i = .error { kind := .outOfRangeAddress .register, detail := some (i.toNat : Int) })) ∧
  ∀ s : State, s.running = true → s.fault = none → s.pc ≤ 253 →
    (s.byteAt s.pc ∈ [0x82, 0x47, 0xA2, 0xA0, 0x45, 0x46, 0x50, 0x11] → 7 < (s.byteAt (s.pc + 1)).toNat →
      step s = .next (s.withFault (.outOfRangeAddress .register) (s.byteAt (s.pc + 1)).toNat (s.byteAt s.pc))) ∧
    (s.byteAt s.pc ∈ [0xA2, 0xA0] → (s.byteAt (s.pc + 1)).toNat ≤ 7 → 7 < (s.byteAt (s.pc + 2)).toNat →
      step s = .next (s.withFault (.outOfRangeAddress .register) (s.byteAt (s.pc + 2)).toNat (s.byteAt s.pc)))

/-- 60_exceptions.md R223, R231 (D12): faults are precise. A check that fails in a handler started in s gives the record its
kind and detail and discards what the handler wrote. A step that takes a fault changes nothing but the record, which
carries the step's opcode and program counter; the status is Faulted, and no step follows that could clear or overwrite
it. -/
def Obligations.FaultsArePrecise : Prop :=
  (∀ (s : State) (op : Byte) (e : FaultCause), commit s op (.error e) =
    .next { s with fault := some { kind := e.kind, detail := e.detail, opcode := some op, pc := s.pc } }) ∧
  ∀ s t r, step s = .next t → t.fault = some r →
    t = { s with fault := some r } ∧ r.pc = s.pc ∧
    r.opcode = (if s.pc ≤ 255 then some (s.byteAt s.pc) else none) ∧
    1 ≤ r.code ∧ r.code ≤ 5 ∧ r.detail ≠ none ∧ t.status = .faulted ∧ ∀ u, step t ≠ .next u

/-- 60_exceptions.md R228: code 6 is never raised, by any instruction or step. -/
def Obligations.UnsupportedOperationIsNeverRaised : Prop :=
  (∀ i s t r, exec i s = .next t → s.fault = none → t.fault = some r → r.kind ≠ .unsupportedArithmeticOperation) ∧
  ∀ s t r, step s = .next t → t.fault = some r → r.kind ≠ .unsupportedArithmeticOperation

/-! ## Frames -/

/-- 10_state.md Table RW: an instruction leaves every register it does not write as it was. -/
def Obligations.RegistersOutsideTableRWAreUnchanged : Prop :=
  ∀ i s t, exec i s = .next t → ∀ r : RegName, mayWriteReg i r = false → t.reg r = s.reg r

/-- 20_memory.md section 1 (R58): PUSH and CALL store one byte, at the stack pointer SpDec gives; every other byte, and
every byte under any other instruction, reads as before. -/
def Obligations.MemoryOutsideTheStoredByteIsUnchanged : Prop :=
  ∀ i s t, exec i s = .next t → ∀ c,
    (∀ a u, (i = .push a ∨ i = .call a) → spDec s = .ok u → c ≠ u.sp.toNat) → t.byteAt c = s.byteAt c

/-- The running flag, the output stream, the parameters and the fault record change only as the spec says: HLT clears the
flag, PRN appends one byte, nothing changes the parameters, and the record changes only where the instruction faults
(10_state.md sections 4 and 6). -/
def Obligations.FlagOutputAndRecordFrame : Prop :=
  ∀ i s t, exec i s = .next t →
    t.params = s.params ∧ (i ≠ .hlt → t.running = s.running) ∧ ((∀ a, i ≠ .prn a) → t.out = s.out) ∧
    (t.fault = s.fault ∨ ∃ r, t = { s with fault := some r } ∧ r.opcode = some i.opcode ∧ r.pc = s.pc)

/-- 44_call_ret.md R210: only CALL and RET transfer control; every other instruction that does not fault advances the
program counter by its fixed amount, HLT by none, and HLT stops the run. -/
def Obligations.OnlyCallAndRetTransferControl : Prop :=
  ∀ i s t n, exec i s = .next t → s.fault = none → t.fault = none → fixedAdvance i s.params = some n →
    t.pc = s.pc + n ∧ (i = .hlt → t.status = .halted)

/-! ## Rules of the whole machine -/

/-- The invariant is kept by every step, from every state that meets it: memory stays canonical, the program counter stays
in 0..256, and every record is one of Table E (10_state.md R33, R41; 60_exceptions.md R221, R230). -/
def Obligations.EveryStepKeepsTheInvariant : Prop :=
  ∀ s t : State, s.Inv → step s = .next t → t.Inv

/-- The reset state meets the invariant. -/
def Obligations.ResetMeetsTheInvariant : Prop := State.reset.Inv

/-- Every launched state meets the invariant, whatever the image and the switches. -/
def Obligations.EveryLaunchMeetsTheInvariant : Prop :=
  ∀ params program s, State.launch params program = .next s → s.Inv

/-- 10_state.md R39: nothing sets `running` again, and a halted block performs no step. -/
def Obligations.HaltedIsTerminal : Prop :=
  (∀ i s t, exec i s = .next t → s.running = false → t.running = false) ∧
  ∀ s t : State, s.running = false → step s ≠ .next t

/-- 10_state.md section 4 (R38): a step that clears `running` is a HLT, and it changes nothing else. -/
def Obligations.OnlyHltClearsRunning : Prop :=
  ∀ s t, step s = .next t → t.running = false → s.byteAt s.pc = 0x01 ∧ s.pc ≤ 253 ∧ t = { s with running := false }

/-- 10_state.md section 6 (R44): a step leaves the output stream alone, or it is a PRN and appends its register; nothing
emitted is ever taken back. -/
def Obligations.OnlyPrnEmits : Prop :=
  ∀ s t, step s = .next t → t.out = s.out ∨
    (s.byteAt s.pc = 0x47 ∧ ∃ h : (s.byteAt (s.pc + 1)).toNat < 8, t.out = s.out ++ [s.x[(s.byteAt (s.pc + 1)).toNat]])

/-- 20_memory.md R56, R57 and R71 (D5, D17): an access outside 0..255 is not performed and faults; a read gives the cell's
byte; a byte written is what every later read and every later fetch, from the next on, sees there, and other cells read as
before. -/
def Obligations.StoresAreSeenByTheNextFetch : Prop :=
  ∀ (s : State) (a : Nat) (v : Byte),
    (255 < a → memWrite s a v = .error { kind := .outOfRangeAddress .memory, detail := some (a : Int) } ∧
      memRead s a = .error { kind := .outOfRangeAddress .memory, detail := some (a : Int) }) ∧
    (a ≤ 255 → memRead s a = .ok (s.byteAt a) ∧ ∃ t, memWrite s a v = .ok t ∧
    (∀ c, c ≤ 255 → memRead t c = .ok (if c = a then v else s.byteAt c)) ∧
    ∀ p, p ≤ 253 → fetch { t with pc := p } =
      .ok (if p = a then v else s.byteAt p, if p + 1 = a then v else s.byteAt (p + 1),
           if p + 2 = a then v else s.byteAt (p + 2)))

/-- 20_memory.md section 1 and 70_reset_and_hazards.md section 1 (R58, R257): a step depends on memory only through its
fetch window and the cell at the stack pointer. Two states that agree there, and differ in other cells (in `INIT_MEM`, say),
take steps that agree in everything but cells in which they already differed. -/
def Obligations.StepReadsOnlyTheWindowAndTheStackCell : Prop :=
  ∀ (s t : State) (m : Memory), (∀ k, k ≤ 2 → s.pc + k ≤ 255 → s.byteAt (s.pc + k) = Memory.read m (s.pc + k)) →
    s.byteAt s.x[7].toNat = Memory.read m s.x[7].toNat → step s = .next t →
    ∃ m', step { s with mem := m } = .next { t with mem := m' } ∧
      ∀ c, s.byteAt c = Memory.read m c → t.byteAt c = Memory.read m' c

/-- 43_stack.md "Laws of the pair" (R186): PUSH then POP of one register restores the whole register file. -/
def Obligations.PushThenPopRestoresTheRegisters : Prop :=
  ∀ (s : State) (a : Byte), a.toNat < 8 → s.x[7] ≠ 0 →
    ∃ t, execAll [.push a, .pop a] s = .next t ∧ t.x = s.x ∧ t.pc = s.pc + 4 ∧ t.fault = s.fault

/-- 43_stack.md "Laws of the pair" (R187): pushing r0 to r7 and popping r7 to r0 restores every register. -/
def Obligations.PushAllThenPopAllRestoresTheRegisters : Prop :=
  ∀ s : State, 8 ≤ s.x[7].toNat →
    ∃ t, execAll [.push 0, .push 1, .push 2, .push 3, .push 4, .push 5, .push 6, .push 7,
                  .pop 7, .pop 6, .pop 5, .pop 4, .pop 3, .pop 2, .pop 1, .pop 0] s = .next t ∧
      t.x = s.x ∧ t.pc = s.pc + 32 ∧ t.fault = s.fault

/-- 43_stack.md "Laws of the pair" (R188): PUSH rA then POP rB, B not 7, moves `x[A]` into `x[B]` and keeps the stack
pointer; for A = 7 it moves the stack pointer less one. -/
def Obligations.PushThenPopMovesARegister : Prop :=
  ∀ (s : State) (a b : Byte) (ha : a.toNat < 8) (hb : b.toNat < 7), s.x[7] ≠ 0 →
    ∃ t, execAll [.push a, .pop b] s = .next t ∧
      t.x = s.x.set b.toNat (if a.toNat = 7 then s.x[7] - 1 else s.x[a.toNat]) (by omega) ∧ t.fault = s.fault

/-- 44_call_ret.md "Control transfer" (R212): PUSH rT then RET rS, S not 7, jumps to `x[T]` (for T = 7, to the stack pointer
less one), copies the target into `x[S]` and keeps the stack pointer. -/
def Obligations.PushThenRetJumpsIndirectly : Prop :=
  ∀ (s : State) (a b : Byte) (ha : a.toNat < 8) (hb : b.toNat < 7), s.x[7] ≠ 0 →
    ∃ t, execAll [.push a, .ret b] s = .next t ∧
      t.pc = (if a.toNat = 7 then s.x[7] - 1 else s.x[a.toNat]).toNat ∧
      t.x = s.x.set b.toNat (if a.toNat = 7 then s.x[7] - 1 else s.x[a.toNat]) (by omega) ∧ t.fault = s.fault

/-- 44_call_ret.md "Control transfer" (R209): whatever runs between a CALL at P and a RET rS, if it leaves the stack pointer
and the return cell as the CALL left them, the RET comes back to P + 2 with the stack pointer as before the CALL; with
S = 7 the stack pointer ends at P + 3 instead, where that is a byte. -/
def Obligations.BalancedCallReturnsPastTheCall : Prop :=
  ∀ (s t u : State) (a b : Byte), a.toNat < 8 → s.fault = none → s.pc ≤ 253 →
    exec (.call a) s = .next t → t.fault = none → u.x[7] = t.x[7] → u.byteAt t.x[7].toNat = t.byteAt t.x[7].toNat →
    (∀ h : b.toNat < 7, ∃ v, exec (.ret b) u = .next v ∧ v.pc = s.pc + 2 ∧ v.x[7] = s.x[7] ∧
      v.x[b.toNat].toNat = s.pc + 2 ∧ v.fault = u.fault) ∧
    (b.toNat = 7 → s.pc ≤ 252 → ∃ v, exec (.ret b) u = .next v ∧ v.pc = s.pc + 2 ∧ v.x[7].toNat = s.pc + 3 ∧
      v.fault = u.fault)

/-- 44_call_ret.md "Control transfer" (R211): after a CALL or RET that completed with a target of 254 or 255, the next
step's fetch faults on address 256. That such targets are accepted is said by CallPushesTheReturnAddressAndJumps and
RetJumpsToTheTopOfStack, which hold for every target byte (RET r7 faults on 255 by R206). -/
def Obligations.TargetsAtTheEndOfMemoryFaultAtTheNextFetch : Prop :=
  ∀ (s t : State) (a : Byte) (i : Instr), (i = .call a ∨ i = .ret a) → s.running = true → exec i s = .next t →
    t.fault = none → 254 ≤ t.pc →
    ∃ u r, step t = .next u ∧ u.fault = some r ∧ r.kind = .outOfRangeAddress .memory ∧ r.detail = some 256 ∧ r.pc = t.pc

/-- 42_alu.md section 3 (R166): with `ADD_PC_ADVANCE = 0` and `wrap`, an ADD executes again and again; after k steps the
register is `x[a] + k·x[b]` mod 256, or `x[a]·2^k` mod 256 when a = b, and nothing else has changed. -/
def Obligations.LiteralAddRepeatsForever : Prop :=
  ∀ (k : Nat) (s : State) (a b : Byte) (ha : a.toNat < 8) (hb : b.toNat < 8),
    s.params = { addPcAdvance := .zero, aluOverflow := .wrap } → s.running = true → s.fault = none → s.pc ≤ 253 →
    s.byteAt s.pc = 0xA0 → s.byteAt (s.pc + 1) = a → s.byteAt (s.pc + 2) = b →
    stepN k s = .next { s with
      x := s.x.set a.toNat (BitVec.ofNat 8
        (if a = b then s.x[a.toNat].toNat * 2 ^ k else s.x[a.toNat].toNat + k * s.x[b.toNat].toNat)) ha }

/-- 40_engine.md section 6 (R118): through bytes that are all unrecognized the program counter climbs by one a step to 254,
where the fetch faults on address 256. -/
def Obligations.UnrecognizedBytesRunOffTheEndOfMemory : Prop :=
  ∀ s : State, s.running = true → s.fault = none → s.pc ≤ 254 →
    (∀ c, s.pc ≤ c → c ≤ 253 → s.byteAt c ∉ recognizedOpcodes) →
    stepN (254 - s.pc) s = .next { s with pc := 254 } ∧
    step { s with pc := 254 } = .next { s with
      pc := 254
      fault := some { kind := .outOfRangeAddress .memory, detail := some 256, opcode := some (s.byteAt 254), pc := 254 } }

/-- 40_engine.md section 6 (R116): once a run has ended, watching it longer shows the same end; and a bounded run shows a
halt only of a run that has left Running. -/
def Obligations.AnEndedRunStaysEnded : Prop :=
  ∀ (k m : Nat) (s : State), (∀ u, runFor k s ≠ .unfinished u) → runFor (k + m) s = runFor k s

/-- 10_state.md R47.4 and Table H: the status port gives the status and the whole record, with the codes of 60_exceptions.md
Table E, and shows a fault as `UnknownInstructionFatal` with the record's opcode. -/
def Obligations.StatusPortGivesTheStatusAndTheRecord : Prop :=
  (∀ s : State, s.statusPort.status = s.status ∧
    (s.fault = none → s.statusPort.fault = none ∧ s.statusPort.outcome = if s.running then .running else .halted) ∧
    ∀ r, s.fault = some r → s.statusPort.outcome = .unknownInstructionFatal r.opcode ∧
      s.statusPort.fault = some { code := r.kind.code, kind := r.kind, detail := r.detail, opcode := r.opcode, pc := r.pc }) ∧
  (FaultKind.outOfRangeAddress .memory).code = 1 ∧ (FaultKind.outOfRangeAddress .register).code = 2 ∧
  (FaultKind.outOfRangeAddress .stack).code = 3 ∧ FaultKind.operandOverlap.code = 4 ∧
  FaultKind.arithmeticOverflow.code = 5 ∧ FaultKind.unsupportedArithmeticOperation.code = 6
end

