-- ==== Sys2Proof/Laws/State.lean ====
section
/-! SUPPORT. One lemma per field per update, each true by unfolding once, so that no later proof unfolds a record update. -/

namespace Sys2Proof.Machine

open Sys2Proof

variable (s : State)

@[simp] theorem State.setByte_mem (a : Nat) (v : Byte) : (s.setByte a v).mem = Memory.poke s.mem a v := rfl
@[simp] theorem State.setByte_x (a : Nat) (v : Byte) : (s.setByte a v).x = s.x := rfl
@[simp] theorem State.setByte_pc (a : Nat) (v : Byte) : (s.setByte a v).pc = s.pc := rfl
@[simp] theorem State.setByte_running (a : Nat) (v : Byte) : (s.setByte a v).running = s.running := rfl
@[simp] theorem State.setByte_fault (a : Nat) (v : Byte) : (s.setByte a v).fault = s.fault := rfl
@[simp] theorem State.setByte_out (a : Nat) (v : Byte) : (s.setByte a v).out = s.out := rfl
@[simp] theorem State.setByte_params (a : Nat) (v : Byte) : (s.setByte a v).params = s.params := rfl

@[simp] theorem State.setReg_mem (r : RegName) (v : Byte) : (s.setReg r v).mem = s.mem := rfl
@[simp] theorem State.setReg_x (r : RegName) (v : Byte) : (s.setReg r v).x = s.x.set r v := rfl
@[simp] theorem State.setReg_pc (r : RegName) (v : Byte) : (s.setReg r v).pc = s.pc := rfl
@[simp] theorem State.setReg_running (r : RegName) (v : Byte) : (s.setReg r v).running = s.running := rfl
@[simp] theorem State.setReg_fault (r : RegName) (v : Byte) : (s.setReg r v).fault = s.fault := rfl
@[simp] theorem State.setReg_out (r : RegName) (v : Byte) : (s.setReg r v).out = s.out := rfl
@[simp] theorem State.setReg_params (r : RegName) (v : Byte) : (s.setReg r v).params = s.params := rfl

@[simp] theorem State.setSp_mem (v : Byte) : (s.setSp v).mem = s.mem := rfl
@[simp] theorem State.setSp_x (v : Byte) : (s.setSp v).x = s.x.set Config.spIndex v := rfl
@[simp] theorem State.setSp_pc (v : Byte) : (s.setSp v).pc = s.pc := rfl
@[simp] theorem State.setSp_running (v : Byte) : (s.setSp v).running = s.running := rfl
@[simp] theorem State.setSp_fault (v : Byte) : (s.setSp v).fault = s.fault := rfl
@[simp] theorem State.setSp_out (v : Byte) : (s.setSp v).out = s.out := rfl
@[simp] theorem State.setSp_params (v : Byte) : (s.setSp v).params = s.params := rfl

@[simp] theorem State.setPc_mem (n : Nat) : (s.setPc n).mem = s.mem := rfl
@[simp] theorem State.setPc_x (n : Nat) : (s.setPc n).x = s.x := rfl
@[simp] theorem State.setPc_pc (n : Nat) : (s.setPc n).pc = n := rfl
@[simp] theorem State.setPc_running (n : Nat) : (s.setPc n).running = s.running := rfl
@[simp] theorem State.setPc_fault (n : Nat) : (s.setPc n).fault = s.fault := rfl
@[simp] theorem State.setPc_out (n : Nat) : (s.setPc n).out = s.out := rfl
@[simp] theorem State.setPc_params (n : Nat) : (s.setPc n).params = s.params := rfl

@[simp] theorem State.advance_mem (n : Nat) : (s.advance n).mem = s.mem := rfl
@[simp] theorem State.advance_x (n : Nat) : (s.advance n).x = s.x := rfl
@[simp] theorem State.advance_pc (n : Nat) : (s.advance n).pc = s.pc + n := rfl
@[simp] theorem State.advance_running (n : Nat) : (s.advance n).running = s.running := rfl
@[simp] theorem State.advance_fault (n : Nat) : (s.advance n).fault = s.fault := rfl
@[simp] theorem State.advance_out (n : Nat) : (s.advance n).out = s.out := rfl
@[simp] theorem State.advance_params (n : Nat) : (s.advance n).params = s.params := rfl

@[simp] theorem State.emit_mem (v : Byte) : (s.emit v).mem = s.mem := rfl
@[simp] theorem State.emit_x (v : Byte) : (s.emit v).x = s.x := rfl
@[simp] theorem State.emit_pc (v : Byte) : (s.emit v).pc = s.pc := rfl
@[simp] theorem State.emit_running (v : Byte) : (s.emit v).running = s.running := rfl
@[simp] theorem State.emit_fault (v : Byte) : (s.emit v).fault = s.fault := rfl
@[simp] theorem State.emit_out (v : Byte) : (s.emit v).out = s.out ++ [v] := rfl
@[simp] theorem State.emit_params (v : Byte) : (s.emit v).params = s.params := rfl

@[simp] theorem State.clearRunning_mem : s.clearRunning.mem = s.mem := rfl
@[simp] theorem State.clearRunning_x : s.clearRunning.x = s.x := rfl
@[simp] theorem State.clearRunning_pc : s.clearRunning.pc = s.pc := rfl
@[simp] theorem State.clearRunning_running : s.clearRunning.running = false := rfl
@[simp] theorem State.clearRunning_fault : s.clearRunning.fault = s.fault := rfl
@[simp] theorem State.clearRunning_out : s.clearRunning.out = s.out := rfl
@[simp] theorem State.clearRunning_params : s.clearRunning.params = s.params := rfl

@[simp] theorem takeFault_mem (op : Option Byte) (e : FaultCause) : (takeFault s op e).mem = s.mem := rfl
@[simp] theorem takeFault_x (op : Option Byte) (e : FaultCause) : (takeFault s op e).x = s.x := rfl
@[simp] theorem takeFault_pc (op : Option Byte) (e : FaultCause) : (takeFault s op e).pc = s.pc := rfl
@[simp] theorem takeFault_running (op : Option Byte) (e : FaultCause) : (takeFault s op e).running = s.running := rfl
@[simp] theorem takeFault_fault (op : Option Byte) (e : FaultCause) : (takeFault s op e).fault = some ⟨e.kind, e.detail, op, s.pc⟩ := rfl
@[simp] theorem takeFault_out (op : Option Byte) (e : FaultCause) : (takeFault s op e).out = s.out := rfl
@[simp] theorem takeFault_params (op : Option Byte) (e : FaultCause) : (takeFault s op e).params = s.params := rfl

/-! Reads over updates. -/

theorem State.reg_def (r : RegName) : s.reg r = s.x[r] := rfl

theorem State.sp_def : s.sp = s.reg Config.spIndex := rfl

theorem State.setSp_def (v : Byte) : s.setSp v = s.setReg Config.spIndex v := rfl

theorem State.byteAt_def (a : Nat) : s.byteAt a = Memory.read s.mem a := rfl

/-- A register read over a register write (10_state.md R29: a register reads back the last value written to it). -/
@[simp] theorem State.reg_setReg (r q : RegName) (v : Byte) :
    (s.setReg r v).reg q = if r = q then v else s.reg q := by
  simp only [State.reg, State.setReg, Fin.getElem_fin, Vector.getElem_set, Fin.ext_iff]

@[simp] theorem State.reg_setByte (r : RegName) (a : Nat) (v : Byte) : (s.setByte a v).reg r = s.reg r := rfl
@[simp] theorem State.reg_setPc (r : RegName) (n : Nat) : (s.setPc n).reg r = s.reg r := rfl
@[simp] theorem State.reg_advance (r : RegName) (n : Nat) : (s.advance n).reg r = s.reg r := rfl
@[simp] theorem State.reg_emit (r : RegName) (v : Byte) : (s.emit v).reg r = s.reg r := rfl
@[simp] theorem State.reg_clearRunning (r : RegName) : s.clearRunning.reg r = s.reg r := rfl
@[simp] theorem reg_takeFault (r : RegName) (op : Option Byte) (e : FaultCause) : (takeFault s op e).reg r = s.reg r := rfl

@[simp] theorem State.byteAt_setReg (r : RegName) (v : Byte) (c : Nat) : (s.setReg r v).byteAt c = s.byteAt c := rfl
@[simp] theorem State.byteAt_setSp (v : Byte) (c : Nat) : (s.setSp v).byteAt c = s.byteAt c := rfl
@[simp] theorem State.byteAt_setPc (n : Nat) (c : Nat) : (s.setPc n).byteAt c = s.byteAt c := rfl
@[simp] theorem State.byteAt_advance (n : Nat) (c : Nat) : (s.advance n).byteAt c = s.byteAt c := rfl
@[simp] theorem State.byteAt_emit (v : Byte) (c : Nat) : (s.emit v).byteAt c = s.byteAt c := rfl
@[simp] theorem State.byteAt_clearRunning (c : Nat) : s.clearRunning.byteAt c = s.byteAt c := rfl
@[simp] theorem byteAt_takeFault (op : Option Byte) (e : FaultCause) (c : Nat) : (takeFault s op e).byteAt c = s.byteAt c := rfl

end Sys2Proof.Machine
end

