-- ==== Sys2Proof/Laws/Memory.lean ====
section
/-! SUPPORT. The laws of memory: read after write, that every memory operation keeps the canonical form, and that the form
is canonical. -/

namespace Sys2Proof.Machine

open Sys2Proof

/-- A cell reads as what was last written to it, and a write touches no other cell. -/
@[simp] theorem Memory.peek_poke (m : Memory) (a b : Nat) (v : Byte) :
    Memory.peek (Memory.poke m a v) b = if b = a then some v else Memory.peek m b := by
  induction m with
  | nil => simp [Memory.poke, Memory.peek]
  | cons c m ih =>
    obtain ⟨k, w⟩ := c
    by_cases hlt : a < k
    · simp [Memory.poke, Memory.peek, hlt]
    · by_cases hak : a = k
      · subst hak
        by_cases hb : b = a <;> simp [Memory.poke, Memory.peek, hb]
      · have hka : k ≠ a := fun h => hak h.symm
        by_cases hbk : b = k
        · subst hbk; simp [Memory.poke, Memory.peek, hlt, hak, hka]
        · simp [Memory.poke, Memory.peek, hlt, hak, hbk, ih]

theorem Memory.readWith_poke (init : Nat → Byte) (m : Memory) (a b : Nat) (v : Byte) :
    Memory.readWith init (Memory.poke m a v) b = if b = a then v else Memory.readWith init m b := by
  simp only [Memory.readWith, Memory.peek_poke]
  split <;> rfl

@[simp] theorem Memory.read_poke (m : Memory) (a b : Nat) (v : Byte) :
    Memory.read (Memory.poke m a v) b = if b = a then v else Memory.read m b :=
  Memory.readWith_poke Config.initMem m a b v

@[simp] theorem State.byteAt_setByte (s : State) (a b : Nat) (v : Byte) :
    (s.setByte a v).byteAt b = if b = a then v else s.byteAt b := Memory.read_poke s.mem a b v

/-- An unlisted cell reads as `INIT_MEM`. -/
theorem Memory.read_nil (a : Nat) : Memory.read [] a = Config.initMem a := rfl

theorem Memory.wfFrom_mono {lo lo' : Nat} (h : lo' ≤ lo) {m : Memory} (hw : Memory.wfFrom lo m = true) :
    Memory.wfFrom lo' m = true := by
  cases m with
  | nil => rfl
  | cons c m =>
    simp only [Memory.wfFrom, Bool.and_eq_true, decide_eq_true_eq] at hw ⊢
    exact ⟨⟨h.trans hw.1.1, hw.1.2⟩, hw.2⟩

theorem Memory.wfFrom_poke {lo a : Nat} (v : Byte) (hlo : lo ≤ a) (ha : a < Config.memSize) {m : Memory}
    (hw : Memory.wfFrom lo m = true) : Memory.wfFrom lo (Memory.poke m a v) = true := by
  induction m generalizing lo with
  | nil => simp [Memory.poke, Memory.wfFrom, hlo, ha]
  | cons c m ih =>
    obtain ⟨k, w⟩ := c
    simp only [Memory.wfFrom, Bool.and_eq_true, decide_eq_true_eq] at hw
    obtain ⟨⟨hk, hk256⟩, hm⟩ := hw
    simp only [Memory.poke]
    split
    · simp only [Memory.wfFrom, Bool.and_eq_true, decide_eq_true_eq]
      exact ⟨⟨hlo, ha⟩, ⟨by omega, hk256⟩, hm⟩
    · split
      · subst_vars
        simp only [Memory.wfFrom, Bool.and_eq_true, decide_eq_true_eq]
        exact ⟨⟨hlo, ha⟩, hm⟩
      · simp only [Memory.wfFrom, Bool.and_eq_true, decide_eq_true_eq]
        exact ⟨⟨hk, hk256⟩, ih (by omega) hm⟩

/-- Writing a cell that exists keeps the canonical form. -/
theorem Memory.wf_poke {m : Memory} (hw : m.wf = true) {a : Nat} (ha : a < 256) (v : Byte) :
    (Memory.poke m a v).wf = true :=
  Memory.wfFrom_poke v (Nat.zero_le a) ha hw

theorem Memory.wf_reset : State.reset.mem.wf = true := rfl

/-- The loader keeps the canonical form while its cursor stays in memory. -/
theorem Memory.wf_loadFrom (vs : List Byte) : ∀ {c : Nat} {m : Memory}, c + vs.length ≤ 256 → m.wf = true →
    (Memory.loadFrom c vs m).wf = true := by
  induction vs with
  | nil => intro c m _ hw; exact hw
  | cons v vs ih =>
    intro c m hc hw
    simp only [List.length_cons] at hc
    exact ih (by omega) (Memory.wf_poke hw (by omega) v)

theorem State.wf_storeBytes (vs : List Byte) : ∀ {s : State} {a : Nat}, s.mem.wf = true →
    (s.storeBytes a vs).mem.wf = true := by
  induction vs with
  | nil => intro s a hw; exact hw
  | cons v vs ih =>
    intro s a hw
    refine ih ?_
    split
    · exact hw
    · exact Memory.wf_poke hw (by omega) v

theorem State.wf_setByte {s : State} {a : Nat} (hw : s.mem.wf = true) (ha : a < 256) (v : Byte) :
    (s.setByte a v).mem.wf = true := Memory.wf_poke hw ha v

/-- Below its first address a canonical memory lists nothing. -/
theorem Memory.peek_below {lo a : Nat} {m : Memory} (hw : Memory.wfFrom lo m = true) (ha : a < lo) :
    Memory.peek m a = none := by
  induction m generalizing lo with
  | nil => rfl
  | cons c m ih =>
    obtain ⟨k, w⟩ := c
    simp only [Memory.wfFrom, Bool.and_eq_true, decide_eq_true_eq] at hw
    have hne : a ≠ k := by omega
    simp only [Memory.peek, hne, if_false]
    exact ih hw.2 (by omega)

theorem Memory.eq_of_peek_eq {lo : Nat} : ∀ {m n : Memory}, Memory.wfFrom lo m = true → Memory.wfFrom lo n = true →
    (∀ a, Memory.peek m a = Memory.peek n a) → m = n := by
  intro m
  induction m generalizing lo with
  | nil =>
    intro n _ _ h
    cases n with
    | nil => rfl
    | cons c n => simpa [Memory.peek] using h c.1
  | cons c m ih =>
    intro n hm hn h
    obtain ⟨k, w⟩ := c
    cases n with
    | nil => simpa [Memory.peek] using h k
    | cons d n =>
      obtain ⟨l, u⟩ := d
      simp only [Memory.wfFrom, Bool.and_eq_true, decide_eq_true_eq] at hm hn
      have hkl : k = l := by
        rcases Nat.lt_trichotomy k l with hlt | heq | hlt
        · have hk := h k
          simp [Memory.peek, show k ≠ l by omega, Memory.peek_below hn.2 (show k < l + 1 by omega)] at hk
        · exact heq
        · have hl := h l
          simp [Memory.peek, show l ≠ k by omega, Memory.peek_below hm.2 (show l < k + 1 by omega)] at hl
      subst hkl
      have hwu : w = u := by simpa [Memory.peek] using h k
      subst hwu
      have hmn : m = n := by
        refine ih hm.2 hn.2 fun a => ?_
        have ha := h a
        by_cases hak : a = k
        · subst hak
          rw [Memory.peek_below hm.2 (by omega), Memory.peek_below hn.2 (by omega)]
        · simpa [Memory.peek, hak] using ha
      rw [hmn]

/-- The form is canonical: two memories that read alike whatever `INIT_MEM` is are the same data (log entry 2). -/
theorem Memory.eq_of_reads_eq {m n : Memory} (hm : m.wf = true) (hn : n.wf = true)
    (h : ∀ init a, Memory.readWith init m a = Memory.readWith init n a) : m = n := by
  refine Memory.eq_of_peek_eq hm hn fun a => ?_
  have h0 := h (fun _ => 0) a
  have h1 := h (fun _ => 1) a
  simp only [Memory.readWith] at h0 h1
  cases hp : Memory.peek m a <;> cases hq : Memory.peek n a <;> simp only [hp, hq, Option.getD] at h0 h1 ⊢
  · exact absurd (h0.trans h1.symm) (by decide)
  · exact absurd (h0.symm.trans h1) (by decide)
  · rw [h0]

end Sys2Proof.Machine
end

