-- ==== Sys2Proof/Laws/Ops.lean ====
section
/-! SUPPORT. One lemma per shared operation that says everything it can do; later proofs cite these and do not unfold the
operation again. -/

namespace Sys2Proof.Machine

open Sys2Proof

/-! ## Register index check -/

theorem checkReg_of_lt {a : Byte} (h : a.toNat < 8) : checkReg a = .ok ⟨a.toNat, h⟩ := by
  simp [checkReg, h]

theorem checkReg_of_ge {a : Byte} (h : 8 ≤ a.toNat) : checkReg a = .error (causeRegister a) := by
  simp [checkReg, h]

theorem checkReg_cases (a : Byte) :
    (∃ h : a.toNat < 8, checkReg a = .ok ⟨a.toNat, h⟩) ∨ (8 ≤ a.toNat ∧ checkReg a = .error (causeRegister a)) := by
  rcases Nat.lt_or_ge a.toNat 8 with h | h
  · exact .inl ⟨h, checkReg_of_lt h⟩
  · exact .inr ⟨h, checkReg_of_ge h⟩

/-! ## The stack pointer -/

theorem spDec_of_ne {s : State} (h : s.sp ≠ 0) : spDec s = .ok (s.setSp (s.sp - 1)) := by
  have hpos : 0 < s.sp.toNat := by
    rcases Nat.eq_zero_or_pos s.sp.toNat with h0 | h0
    · exact absurd (BitVec.eq_of_toNat_eq h0) h
    · exact h0
  have hval : BitVec.ofInt 8 ((s.sp.toNat : Int) - 1) = s.sp - 1 := by
    have hlt := s.sp.isLt
    apply BitVec.eq_of_toNat_eq
    rw [BitVec.toNat_ofInt, BitVec.toNat_sub]
    have h1 : (1 : Byte).toNat = 1 := rfl
    rw [h1]
    omega
  have hneg : ¬ ((s.sp.toNat : Int) - 1 < 0) := by omega
  simp only [spDec, hneg, if_false, hval]

theorem spDec_of_zero {s : State} (h : s.sp = 0) : spDec s = .error (causeStack (-1)) := by
  simp [spDec, h]

theorem spDec_cases (s : State) :
    (s.sp ≠ 0 ∧ spDec s = .ok (s.setSp (s.sp - 1))) ∨ (s.sp = 0 ∧ spDec s = .error (causeStack (-1))) := by
  by_cases h : s.sp = 0
  · exact .inr ⟨h, spDec_of_zero h⟩
  · exact .inl ⟨h, spDec_of_ne h⟩

theorem spInc_of_ne {s : State} (h : s.sp ≠ 255) : spInc s = .ok (s.setSp (s.sp + 1)) := by
  have hlt := s.sp.isLt
  have hne : s.sp.toNat ≠ 255 := fun h0 => h (BitVec.eq_of_toNat_eq h0)
  have hval : BitVec.ofInt 8 ((s.sp.toNat : Int) + 1) = s.sp + 1 := by
    apply BitVec.eq_of_toNat_eq
    rw [BitVec.toNat_ofInt, BitVec.toNat_add]
    have h1 : (1 : Byte).toNat = 1 := rfl
    rw [h1]
    omega
  have hle : ¬ ((s.sp.toNat : Int) + 1 > 255) := by omega
  simp only [spInc, hle, if_false, hval]

theorem spInc_of_max {s : State} (h : s.sp = 255) : spInc s = .error (causeStack 256) := by
  simp [spInc, h]

theorem spInc_cases (s : State) :
    (s.sp ≠ 255 ∧ spInc s = .ok (s.setSp (s.sp + 1))) ∨ (s.sp = 255 ∧ spInc s = .error (causeStack 256)) := by
  by_cases h : s.sp = 255
  · exact .inr ⟨h, spInc_of_max h⟩
  · exact .inl ⟨h, spInc_of_ne h⟩

/-! ## Memory accesses -/

theorem memRead_of_le {s : State} {a : Nat} (h : a ≤ 255) : memRead s a = .ok (s.byteAt a) := by
  simp [memRead, Nat.not_lt.mpr h]

theorem memRead_of_gt {s : State} {a : Nat} (h : 255 < a) : memRead s a = .error (causeMemory a) := by
  simp [memRead, h]

/-- A read at the stack pointer cannot fault (43_stack.md R184). -/
theorem memRead_byte (s : State) (b : Byte) : memRead s b.toNat = .ok (s.byteAt b.toNat) :=
  memRead_of_le (by have := b.isLt; omega)

theorem memWrite_of_le {s : State} {a : Nat} {v : Byte} (h : a ≤ 255) : memWrite s a v = .ok (s.setByte a v) := by
  simp [memWrite, Nat.not_lt.mpr h]

theorem memWrite_of_gt {s : State} {a : Nat} {v : Byte} (h : 255 < a) : memWrite s a v = .error (causeMemory a) := by
  simp [memWrite, h]

/-- A write at the stack pointer cannot fault (43_stack.md R177). -/
theorem memWrite_byte (s : State) (b v : Byte) : memWrite s b.toNat v = .ok (s.setByte b.toNat v) :=
  memWrite_of_le (by have := b.isLt; omega)

/-- A memory write that is performed keeps the canonical form. -/
theorem memWrite_wf {s t : State} {a : Nat} {v : Byte} (h : memWrite s a v = .ok t) (hw : s.mem.wf = true) :
    t.mem.wf = true := by
  rcases Nat.lt_or_ge 255 a with ha | ha
  · rw [memWrite_of_gt ha] at h; cases h
  · rw [memWrite_of_le ha] at h; cases h
    exact Memory.wf_poke hw (by omega) v

/-! ## The ALU -/

theorem alu_wrap (op : AluOp) (p q : Byte) : alu .wrap op p q = .ok (BitVec.ofNat 8 (aluExact op p q % 256)) := rfl

theorem alu_fault_of_le {op : AluOp} {p q : Byte} (h : aluExact op p q ≤ 255) :
    alu .fault op p q = .ok (BitVec.ofNat 8 (aluExact op p q)) := by
  simp [alu, Nat.not_lt.mpr h]

theorem alu_fault_of_gt {op : AluOp} {p q : Byte} (h : 255 < aluExact op p q) :
    alu .fault op p q = .error (causeOverflow (aluExact op p q)) := by
  simp [alu, h]

theorem aluExact_le (op : AluOp) (p q : Byte) : aluExact op p q ≤ 65025 := by
  have hp : p.toNat ≤ 255 := by have := p.isLt; omega
  have hq : q.toNat ≤ 255 := by have := q.isLt; omega
  cases op with
  | add => simp only [aluExact]; omega
  | mul => exact Nat.mul_le_mul hp hq

/-- Under either policy the ALU gives the low byte of the exact result, or, under `fault` only, an overflow. -/
theorem alu_cases (policy : Config.AluOverflow) (op : AluOp) (p q : Byte) :
    alu policy op p q = .ok (BitVec.ofNat 8 (aluExact op p q)) ∨
      (policy = .fault ∧ 255 < aluExact op p q ∧ alu policy op p q = .error (causeOverflow (aluExact op p q))) := by
  cases policy with
  | wrap =>
    refine .inl ?_
    rw [alu_wrap]
    congr 1
    apply BitVec.eq_of_toNat_eq
    simp
  | fault =>
    rcases Nat.lt_or_ge 255 (aluExact op p q) with h | h
    · exact .inr ⟨rfl, h, alu_fault_of_gt h⟩
    · exact .inl (alu_fault_of_le h)

/-! ## The end of a handler -/

@[simp] theorem commit_ok (s t : State) (op : Byte) : commit s op (.ok t) = .next t := rfl

@[simp] theorem commit_error (s : State) (op : Byte) (e : FaultCause) :
    commit s op (.error e) = .next (takeFault s (some op) e) := rfl

/-- Every handler ends in a next state: its own writes, or the state before it with a record. -/
theorem commit_cases {s t : State} {op : Byte} {r : Except FaultCause State} (h : commit s op r = .next t) :
    r = .ok t ∨ ∃ e, r = .error e ∧ t = takeFault s (some op) e := by
  cases r with
  | ok u => simp only [commit_ok, Host.Outcome.next.injEq] at h; exact .inl (by rw [h])
  | error e => simp only [commit_error, Host.Outcome.next.injEq] at h; exact .inr ⟨e, rfl, h.symm⟩

/-- Sequencing: what a successful handler went through. -/
theorem bind_eq_ok {α β : Type} {x : Except FaultCause α} {f : α → Except FaultCause β} {b : β}
    (h : (x >>= f) = .ok b) : ∃ a, x = .ok a ∧ f a = .ok b := by
  cases x with
  | ok a => exact ⟨a, rfl, h⟩
  | error e => cases h

/-- Sequencing: where a failing handler failed. -/
theorem bind_eq_error {α β : Type} {x : Except FaultCause α} {f : α → Except FaultCause β} {e : FaultCause}
    (h : (x >>= f) = .error e) : x = .error e ∨ ∃ a, x = .ok a ∧ f a = .error e := by
  cases x with
  | ok a => exact .inr ⟨a, rfl, h⟩
  | error e' => cases h; exact .inl rfl

@[simp] theorem bind_ok {α β : Type} (a : α) (f : α → Except FaultCause β) : ((Except.ok a : Except FaultCause α) >>= f) = f a := rfl

@[simp] theorem bind_error {α β : Type} (e : FaultCause) (f : α → Except FaultCause β) :
    ((Except.error e : Except FaultCause α) >>= f) = .error e := rfl

/-! ## Fetch -/

theorem fetch_of_le {s : State} (h : s.pc ≤ 253) :
    fetch s = .ok (s.byteAt s.pc, s.byteAt (s.pc + 1), s.byteAt (s.pc + 2)) := by
  simp [fetch, show ¬ 255 < s.pc by omega, show ¬ 255 < s.pc + 1 by omega, show ¬ 255 < s.pc + 2 by omega]

theorem fetch_of_partial {s : State} (h : s.pc = 254 ∨ s.pc = 255) :
    fetch s = .error ⟨causeMemory 256, some (s.byteAt s.pc)⟩ := by
  rcases h with h | h <;> simp [fetch, h]

theorem fetch_of_gt {s : State} (h : 255 < s.pc) : fetch s = .error ⟨causeMemory s.pc, none⟩ := by
  simp [fetch, h]

/-! ## The status port -/

/-- What the status port gives of a faulted block. -/
theorem statusPort_of_fault {s : State} {r : FaultRecord} (h : s.fault = some r) :
    s.statusPort = { status := .faulted, outcome := .unknownInstructionFatal r.opcode, fault := some r.view } := by
  simp [State.statusPort, State.status, State.portOutcome, h]

/-- What the status port gives of a block without a fault. -/
theorem statusPort_of_no_fault {s : State} (h : s.fault = none) :
    s.statusPort = { status := if s.running then .running else .halted,
                     outcome := if s.running then .running else .halted, fault := none } := by
  simp [State.statusPort, State.status, State.portOutcome, h]

end Sys2Proof.Machine
end

