-- ==== Sys2Proof/Laws/PerInstr.lean ====
section
/-! SUPPORT. The per-instruction family EncodedLength: an instruction's encoding is as long as Table L says and begins with
its opcode byte. -/

namespace Sys2Proof.Laws.EncodedLength

open Sys2Proof

/-- The encoding begins with the opcode byte, has the length of Table L, and fits the fetch window (30_encoding.md R80,
R88). -/
def Statement (i : Instr) : Prop :=
  (encode i).head? = some i.opcode ∧ (encode i).length = i.length ∧ 1 ≤ i.length ∧ i.length ≤ 3

theorem ldi (a i : Byte) : Statement (.ldi a i) := by simp [Statement, encode, Instr.opcode, Instr.length]
theorem prn (a : Byte) : Statement (.prn a) := by simp [Statement, encode, Instr.opcode, Instr.length]
theorem hlt : Statement .hlt := by simp [Statement, encode, Instr.opcode, Instr.length]
theorem mul (a b : Byte) : Statement (.mul a b) := by simp [Statement, encode, Instr.opcode, Instr.length]
theorem add (a b : Byte) : Statement (.add a b) := by simp [Statement, encode, Instr.opcode, Instr.length]
theorem push (a : Byte) : Statement (.push a) := by simp [Statement, encode, Instr.opcode, Instr.length]
theorem pop (a : Byte) : Statement (.pop a) := by simp [Statement, encode, Instr.opcode, Instr.length]
theorem call (a : Byte) : Statement (.call a) := by simp [Statement, encode, Instr.opcode, Instr.length]
theorem ret (a : Byte) : Statement (.ret a) := by simp [Statement, encode, Instr.opcode, Instr.length]
theorem unrecognized (op : Byte) : Statement (.unrecognized op) := by
  simp [Statement, encode, Instr.opcode, Instr.length]

end Sys2Proof.Laws.EncodedLength
end

