-- ==== Sys2Proof/Laws/Run.lean ====
section
/-! SUPPORT. Runs of several steps: the host's run and the model's are one, and one step at a time. -/

namespace Sys2Proof.Machine

open Sys2Proof

theorem run_succ_of_next (M : Host.Core) {s t : M.State} (h : M.step s = .next t) (k : Nat) :
    M.run (k + 1) s = M.run k t := by simp only [Host.Core.run, h]

theorem run_succ_of_fault (M : Host.Core) {s : M.State} {f : M.Fault} (h : M.step s = .fault f) (k : Nat) :
    M.run (k + 1) s = .fault f := by simp only [Host.Core.run, h]

theorem run_succ_of_refused (M : Host.Core) {s : M.State} {r : M.Refusal} (h : M.step s = .refused r) (k : Nat) :
    M.run (k + 1) s = .refused r := by simp only [Host.Core.run, h]

theorem stepN_eq_run (k : Nat) : ∀ s : State, stepN k s = core.run k s := by
  induction k with
  | zero => exact fun _ => rfl
  | succ k ih =>
    intro s
    cases h : step s with
    | next t => rw [stepN, h]; exact (ih t).trans (run_succ_of_next core h k).symm
    | fault f => rw [stepN, h]; exact (run_succ_of_fault core h k).symm
    | refused r => rw [stepN, h]; exact (run_succ_of_refused core h k).symm

theorem stepN_succ_of_next {s t : State} (h : step s = .next t) (k : Nat) : stepN (k + 1) s = stepN k t := by
  simp only [stepN, h]

theorem runFor_succ_of_next {s t : State} (h : step s = .next t) (k : Nat) : runFor (k + 1) s = runFor k t := by
  simp only [runFor, h]

theorem execAll_cons_of_next {i : Instr} {s t : State} (h : exec i s = .next t) (is : List Instr) :
    execAll (i :: is) s = execAll is t := by
  simp only [execAll, h]

end Sys2Proof.Machine
end

