-- ==== Sys2Proof/Laws/Step.lean ====
section
/-! SUPPORT. Everything a step can do, said once. -/

namespace Sys2Proof.Machine

open Sys2Proof

/-- A step that answers a next state was taken while Running; its window check failed and the fault was taken, or the
window was valid and its instruction answered that state. -/
theorem step_next_cases {s t : State} (h : step s = .next t) :
    s.fault = none ∧ s.running = true ∧
      ((∃ f, fetch s = .error f ∧ t = takeFault s f.opcode f.cause) ∨
        (s.pc ≤ 253 ∧ exec (decodeWindow (s.byteAt s.pc) (s.byteAt (s.pc + 1)) (s.byteAt (s.pc + 2))) s = .next t)) := by
  simp only [step] at h
  split at h
  · cases h
  · rename_i hfault
    split at h
    · cases h
    · rename_i hrun
      refine ⟨hfault, hrun, ?_⟩
      rcases Nat.lt_or_ge 253 s.pc with hp | hp
      · obtain ⟨f, hf⟩ : ∃ f, fetch s = .error f := by
          rcases Nat.lt_or_ge 255 s.pc with h3 | h3
          · exact ⟨_, fetch_of_gt h3⟩
          · exact ⟨_, fetch_of_partial (by omega)⟩
        rw [hf] at h
        cases h
        exact .inl ⟨f, hf, rfl⟩
      · rw [fetch_of_le hp] at h
        exact .inr ⟨hp, h⟩

/-- A failing window check is taken as a fault. -/
theorem step_of_fetch_error {s : State} {f : FetchFault} (hr : s.running = true) (hf : s.fault = none)
    (h : fetch s = .error f) : step s = .next (takeFault s f.opcode f.cause) := by
  simp only [step, hr, hf, h]

/-- The decoder keeps the opcode byte it was given. -/
@[simp] theorem decodeWindow_opcode (op a b : Byte) : (decodeWindow op a b).opcode = op := by
  simp only [decodeWindow]
  repeat' split
  all_goals simp_all [Instr.opcode]

end Sys2Proof.Machine
end

