-- ==== Sys2Proof/Tests/Slice0.lean ====
section
/-! SUPPORT. Tests: the smoke test of WellFormed, one word per constructor, single steps with expected results from
spec/95_test_vectors.md (the vector is named), and for every statement with hypotheses a witness that meets them. -/

namespace Sys2Proof.Machine.Tests

open Sys2Proof Sys2Proof.Machine

/-! ## Helpers -/

/-- A running state with given cells, registers and program counter. -/
def st (mem : Memory) (x : Vector Byte 8) (pc : Nat) : State := { State.reset with mem := mem, x := x, pc := pc }

/-- The reset registers with two of them replaced. -/
def regs2 (r q : RegName) (v w : Byte) : Vector Byte 8 := (resetRegs.set r v).set q w

/-- The reset state with a three-byte window at its program counter, given registers. -/
def win (op a b : Byte) (x : Vector Byte 8) : State := st [(0, op), (1, a), (2, b)] x 0

/-- The parameters under which both switches take their alternative. -/
def alternative (s : State) : State := { s with params := { addPcAdvance := .zero, aluOverflow := .fault } }

/-- A property of the next state, false of any other outcome. -/
def after (o : Host.Outcome State Fault Refusal) (p : State → Bool) : Bool :=
  match o with
  | .next t => p t
  | .fault _ => false
  | .refused _ => false

/-- The record of the next state is this one, by code, detail, opcode and pc. -/
def faultIs (o : Host.Outcome State Fault Refusal) (code : Nat) (detail : Int) (opcode : Option Byte) (pc : Nat) : Bool :=
  after o fun t => match t.fault with
    | some r => decide (r.code = code ∧ r.detail = some detail ∧ r.opcode = opcode ∧ r.pc = pc ∧ t.pc = pc)
    | none => false

/-! ## Well-formedness -/

/-- The check refuses a skip of each of the nine opcodes, and passes one of the 247 other bytes (R93). -/
theorem test_wellFormed_refuses_recognized :
    ([0x82, 0x47, 0x01, 0xA2, 0xA0, 0x45, 0x46, 0x50, 0x11].all fun op => !(Instr.unrecognized op).wellFormed) = true ∧
      (Instr.unrecognized 0xA1).wellFormed = true := by decide

/-- The byte list of WellFormed and the opcode constants of Decode are the same nine (R86). -/
theorem test_recognized_are_the_opcodes :
    recognizedOpcodes = [opLdi, opPrn, opHlt, opMul, opAdd, opPush, opPop, opCall, opRet] := by decide

/-! ## Decoding: words written out bit by bit from Table O and Table F -/

theorem test_decode_ldi : decode [0b10000010, 0b00000011, 0b00101010] = .ok (.ldi 3 42, []) := by decide
theorem test_decode_prn : decode [0b01000111, 0b00000111, 0b11111111] = .ok (.prn 7, [0xFF]) := by decide
theorem test_decode_hlt : decode [0b00000001, 0b11111111, 0b11111111] = .ok (.hlt, [0xFF, 0xFF]) := by decide
theorem test_decode_mul : decode [0b10100010, 0b00000000, 0b00000001] = .ok (.mul 0 1, []) := by decide
theorem test_decode_add : decode [0b10100000, 0b00000110, 0b00000001] = .ok (.add 6 1, []) := by decide
theorem test_decode_push : decode [0b01000101, 0b00000111, 0b00000000] = .ok (.push 7, [0]) := by decide
theorem test_decode_pop : decode [0b01000110, 0b00000010, 0b00000000] = .ok (.pop 2, [0]) := by decide
theorem test_decode_call : decode [0b01010000, 0b00000001, 0b00000000] = .ok (.call 1, [0]) := by decide
theorem test_decode_ret : decode [0b00010001, 0b10000010, 0b00000000] = .ok (.ret 0x82, [0]) := by decide
theorem test_decode_unrecognized : decode [0b10100001, 0b01000111, 0b00001001] = .ok (.unrecognized 0xA1, [0x47, 9]) := by
  decide
theorem test_decode_short_window : decode [0x01, 0x00] = .error .windowTooShort := by decide

/-- LS-8's opcodes outside Table O are the skip (00_scope.md R24): CMP 0xA7, JMP 0x54, ST 0x84. -/
theorem test_decode_admits_no_ls8 :
    decodeWindow 0xA7 0 1 = .unrecognized 0xA7 ∧ decodeWindow 0x54 0 1 = .unrecognized 0x54 ∧
      decodeWindow 0x84 0 1 = .unrecognized 0x84 := by decide

theorem test_decodeTableWord :
    decodeTableWord 24 0x2A0382 = some (.ldi 3 42) ∧ decodeTableWord 8 0x82 = some (.ldi 0 0) ∧
      decodeTableWord 8 0 = some (.unrecognized 0) := by decide

/-- The placed word is what the next step runs: LDI-1. -/
theorem test_withFetchWord :
    after (step (State.reset.withFetchWord 24 0x2A0382)) (fun t => decide (t.reg 3 = 42 ∧ t.pc = 3)) = true := by decide

/-! ## Single steps: the vectors of 95_test_vectors.md, Section 2 -/

/-- LDI-2. -/
theorem test_ldi_moves_sp :
    after (step (win 0x82 7 0x10 resetRegs)) (fun t => decide (t.sp = 16 ∧ t.pc = 3)) = true := by decide
/-- LDI-4: the index is not masked. -/
theorem test_ldi_index_not_masked : faultIs (step (win 0x82 0xFF 5 resetRegs)) 2 255 (some 0x82) 0 = true := by decide
/-- PRN-2. -/
theorem test_prn_emits_sp :
    after (step (win 0x47 7 0 resetRegs)) (fun t => decide (t.out = [244] ∧ t.pc = 2)) = true := by decide
/-- PRN-3. -/
theorem test_prn_index_fault :
    faultIs (step (win 0x47 9 0 resetRegs)) 2 9 (some 0x47) 0 = true ∧
      after (step (win 0x47 9 0 resetRegs)) (fun t => decide (t.out = [])) = true := by decide
/-- HLT-2. -/
theorem test_hlt_at_253 :
    after (step (st [(253, 1), (254, 0xFF), (255, 0xFF)] resetRegs 253)) (fun t => decide (t.status = .halted ∧ t.pc = 253))
      = true := by decide
/-- HLT-3. -/
theorem test_hlt_at_254_faults :
    faultIs (step (st [(254, 1), (255, 0)] resetRegs 254)) 1 256 (some 0x01) 254 = true := by decide
/-- MUL-3. -/
theorem test_mul_wraps :
    after (step (win 0xA2 0 1 (regs2 0 1 255 255))) (fun t => decide (t.reg 0 = 1 ∧ t.reg 1 = 255 ∧ t.pc = 3)) = true := by
  decide
/-- MUL-2 under the policy fault. -/
theorem test_mul_overflow_fault :
    faultIs (step (alternative (win 0xA2 0 1 (regs2 0 1 16 16)))) 5 256 (some 0xA2) 0 = true := by decide
/-- ADD-5. -/
theorem test_add_sp_wraps :
    after (step (win 0xA0 7 1 (regs2 1 2 12 0))) (fun t => decide (t.sp = 0 ∧ t.pc = 3)) = true := by decide
/-- ADD-6: the literal advance, which leaves the program counter. -/
theorem test_add_literal_advance :
    after (step (alternative (win 0xA0 0 1 (regs2 0 1 8 9)))) (fun t => decide (t.reg 0 = 17 ∧ t.pc = 0)) = true := by decide
/-- PUSH-2: PUSH r7 stores the decremented value. -/
theorem test_push_sp :
    after (step (win 0x45 7 0 resetRegs)) (fun t => decide (t.sp = 243 ∧ t.byteAt 243 = 243 ∧ t.pc = 2)) = true := by decide
/-- PUSH-3. -/
theorem test_push_at_zero_faults : faultIs (step (win 0x45 0 0 (regs2 7 0 0 0))) 3 (-1) (some 0x45) 0 = true := by decide
/-- POP-4: SpInc reads the loaded 5. -/
theorem test_pop_sp :
    after (step (st [(0, 0x46), (1, 7), (2, 0), (255, 5)] (regs2 7 0 255 0) 0)) (fun t => decide (t.sp = 6 ∧ t.pc = 2)) = true := by
  decide
/-- POP-3. -/
theorem test_pop_at_top_faults :
    faultIs (step (st [(0, 0x46), (1, 0), (2, 0), (255, 9)] (regs2 7 0 255 0) 0)) 3 256 (some 0x46) 0 = true := by decide
/-- CALL-2: the target is the new stack pointer. -/
theorem test_call_sp :
    after (step (win 0x50 7 0 resetRegs)) (fun t => decide (t.sp = 243 ∧ t.byteAt 243 = 2 ∧ t.pc = 243)) = true := by decide
/-- CALL-3. -/
theorem test_call_overlap :
    faultIs (step (st [(3, 0x50), (4, 1), (5, 0)] (regs2 1 7 10 5) 3)) 4 4 (some 0x50) 3 = true := by decide
/-- RET-2. -/
theorem test_ret_sp :
    after (step (st [(13, 0x11), (14, 7), (15, 0), (243, 5)] (regs2 7 0 243 0) 13)) (fun t => decide (t.pc = 5 ∧ t.sp = 6)) = true := by
  decide
/-- RET-3. -/
theorem test_ret_one_byte_faults : faultIs (step (win 0x11 0x82 0 (regs2 7 0 243 0))) 2 130 (some 0x11) 0 = true := by decide
/-- FD-5. -/
theorem test_skip : after (step (win 0xA1 0x47 9 resetRegs)) (fun t => decide (t = { win 0xA1 0x47 9 resetRegs with pc := 1 })) = true := by
  decide
/-- FD-4, second step: past memory the record has no opcode. -/
theorem test_fetch_past_memory : faultIs (step (st [] resetRegs 256)) 1 256 none 256 = true := by decide

/-- P5's end: the status port shows the fatal outcome with the opcode, and the record with its code. -/
theorem test_statusPort :
    after (step (win 0x45 0 0 (regs2 7 0 0 0))) (fun t => decide (t.statusPort =
      ⟨.faulted, .unknownInstructionFatal (some 0x45), some ⟨3, .outOfRangeAddress .stack, some (-1), some 0x45, 0⟩⟩)) = true := by
  decide
/-- The loader writes in order from address 0. -/
theorem test_launch :
    after (State.launch Config.Params.default [0x82, 0, 8]) (fun t => decide (t.mem = [(0, 0x82), (1, 0), (2, 8)])) = true := by
  decide
/-- Writes out of order give the canonical form. -/
theorem test_poke_canonical :
    Memory.poke (Memory.poke (Memory.poke [] 9 1) 3 2) 9 4 = [(3, 2), (9, 4)] ∧
      (Memory.poke (Memory.poke [] 9 1) 3 2).wf = true ∧ Memory.wf [(9, 1), (3, 2)] = false := by decide

/-! ## Witnesses: for every statement with hypotheses, a concrete case of each clause -/

theorem witness_LaunchGivesTheResetState : (List.replicate 256 (0 : Byte)).length ≤ 256 :=
  List.length_replicate.le
theorem witness_LongImageIsRefusedAtLaunch : 256 < (List.replicate 257 (0 : Byte)).length :=
  Nat.lt_of_lt_of_eq (Nat.lt_succ_self 256) List.length_replicate.symm

/-- A step that takes a fault: at 254, and past memory. -/
theorem witness_EveryFaultShowsAsUnknownInstruction :
    (∃ t r, step (st [(254, 1)] resetRegs 254) = .next t ∧ t.fault = some r) ∧
      ∃ t r, step (st [] resetRegs 256) = .next t ∧ t.fault = some r := ⟨⟨_, _, rfl, rfl⟩, _, _, rfl, rfl⟩
theorem witness_TracePortShowsPcMemoryAndRegisters : 255 < 256 := by decide
theorem witness_DispatchFollowsTableO : (2 : Byte) ∉ ([130, 71, 1, 162, 160, 69, 70, 80, 17] : List Byte) := by decide
theorem witness_DecodeOfEncodeIsTheInstruction :
    (Instr.unrecognized 0xFF).WellFormed ∧ 3 ≤ (encode (.unrecognized 0xFF) ++ [0, 0]).length := by decide
theorem witness_UnusedOperandBytesHaveNoEffect :
    ([0x47, 7, 1] : List Byte).take (decodeWindow 0x47 7 1).length = ([0x47, 7, 2] : List Byte).take (decodeWindow 0x47 7 1).length := by
  decide
theorem witness_AssemblyFormsGiveTableABytes : assemble .LDI [.reg 7, .imm 255] = some [0x82, 7, 255] ∧
    assemble .LDI [.reg 8, .imm 0] = none ∧ assemble .LDI [.reg 0, .imm 256] = none := by decide
theorem witness_StepRunsTheDecodedInstruction :
    let s := st [(253, 0x11), (254, 7), (255, 0)] resetRegs 253
    let t := st [(253, 0x12)] resetRegs 253
    s.running = true ∧ s.fault = none ∧ s.pc ≤ 253 ∧
      decode [s.byteAt s.pc, s.byteAt (s.pc + 1), s.byteAt (s.pc + 2)] = .ok (.ret 7, [0]) ∧
      t.running = true ∧ t.fault = none ∧ t.pc ≤ 253 ∧ t.byteAt t.pc ∉ recognizedOpcodes := by decide
theorem witness_FetchBeyondMemoryFaults :
    (st [] resetRegs 254).running = true ∧ (st [] resetRegs 254).fault = none ∧ (st [] resetRegs 254).pc = 254 ∧
      (st [] resetRegs 255).pc = 255 ∧ 255 < (st [] resetRegs 256).pc ∧ (st [] resetRegs 253).pc ≤ 253 := by decide
theorem witness_StepIsPerformedExactlyWhileRunning :
    State.reset.status = .running ∧ State.reset.clearRunning.status = .halted ∧
      (State.reset.withFault .operandOverlap 1 0x50).fault = some ⟨.operandOverlap, some 1, some 0x50, 0⟩ := by decide

theorem witness_LdiLoadsTheImmediate : (7 : Byte).toNat < 8 ∧ 7 < (8 : Byte).toNat := by decide
theorem witness_PrnEmitsTheRegister : (7 : Byte).toNat < 8 ∧ 7 < (8 : Byte).toNat := by decide
/-- Clauses: wrap with the largest product; fault with 51·5 = 255 and with 16·16 = 256; index 8 as a and as b. -/
theorem witness_MulWritesTheProduct :
    (win 0xA2 0 1 (regs2 0 1 255 255)).params.aluOverflow = .wrap ∧
    ((alternative (win 0xA2 0 1 (regs2 0 1 51 5))).params.aluOverflow = .fault ∧
      (regs2 0 1 51 5)[0].toNat * (regs2 0 1 51 5)[1].toNat ≤ 255) ∧
    255 < (regs2 0 1 16 16)[0].toNat * (regs2 0 1 16 16)[1].toNat ∧ (7 : Byte).toNat < 8 ∧ 7 < (8 : Byte).toNat := by decide
/-- Clauses: wrap; fault with 254 + 1 = 255 and with 255 + 1 = 256; both settings of the advance. -/
theorem witness_AddWritesTheSum :
    (win 0xA0 0 1 (regs2 0 1 255 255)).params.aluOverflow = .wrap ∧
    (win 0xA0 0 1 (regs2 0 1 255 255)).params.addPcAdvance = .three ∧
    ((alternative (win 0xA0 0 1 (regs2 0 1 254 1))).params = { addPcAdvance := .zero, aluOverflow := .fault } ∧
      (regs2 0 1 254 1)[0].toNat + (regs2 0 1 254 1)[1].toNat ≤ 255) ∧
    255 < (regs2 0 1 255 1)[0].toNat + (regs2 0 1 255 1)[1].toNat ∧ (7 : Byte).toNat < 8 ∧ 7 < (8 : Byte).toNat := by decide
theorem witness_PushStoresBelowTheStackPointer :
    (regs2 7 0 0 0)[7] = 0 ∧ (regs2 7 0 1 0)[7] ≠ 0 ∧ (7 : Byte).toNat < 8 ∧ 7 < (8 : Byte).toNat := by decide
/-- Clauses: a other than 7 at 254 and 255; a = 7 with the loaded bytes 254 and 255. -/
theorem witness_PopLoadsThenIncrements :
    (regs2 7 0 254 0)[7] ≠ 255 ∧ (regs2 7 0 255 0)[7] = 255 ∧
    (st [(244, 254)] resetRegs 0).byteAt (st [(244, 254)] resetRegs 0).x[7].toNat ≠ 255 ∧
    (st [(244, 255)] resetRegs 0).byteAt (st [(244, 255)] resetRegs 0).x[7].toNat = 255 ∧
    (6 : Byte).toNat < 8 ∧ (6 : Byte).toNat ≠ 7 ∧ (7 : Byte).toNat = 7 ∧ 7 < (8 : Byte).toNat := by decide
/-- Clauses: stack pointer 0; the push onto pc + 1; onto pc and onto pc + 2, which do not fault (CALL-4, CALL-5). -/
theorem witness_CallPushesTheReturnAddressAndJumps :
    (st [] resetRegs 253).pc ≤ 253 ∧ (regs2 7 0 0 0)[7] = 0 ∧
    ((st [] (regs2 7 1 5 10) 3).x[7] - 1).toNat = (st [] (regs2 7 1 5 10) 3).pc + 1 ∧
    ((st [] (regs2 7 1 4 10) 3).x[7] - 1).toNat ≠ (st [] (regs2 7 1 4 10) 3).pc + 1 ∧
    ((st [] (regs2 7 1 6 10) 3).x[7] - 1).toNat ≠ (st [] (regs2 7 1 6 10) 3).pc + 1 ∧
    (regs2 7 1 4 10)[7] ≠ 0 ∧ (7 : Byte).toNat < 8 ∧ 7 < (8 : Byte).toNat := by decide
theorem witness_RetJumpsToTheTopOfStack :
    (regs2 7 0 254 0)[7] ≠ 255 ∧ (regs2 7 0 255 0)[7] = 255 ∧
    (st [(10, 254)] (regs2 7 0 10 0) 0).byteAt (st [(10, 254)] (regs2 7 0 10 0) 0).x[7].toNat ≠ 255 ∧
    (st [(10, 255)] (regs2 7 0 10 0) 0).byteAt (st [(10, 255)] (regs2 7 0 10 0) 0).x[7].toNat = 255 ∧
    (6 : Byte).toNat < 8 ∧ (6 : Byte).toNat ≠ 7 ∧ (7 : Byte).toNat = 7 ∧ 7 < (8 : Byte).toNat := by decide
/-- Both sides of a range's ends, and a step at an unrecognized byte at 253 and at 254. -/
theorem witness_UnrecognizedOpcodesAreSkippedSilently :
    (0x10 : Byte) ∉ recognizedOpcodes ∧ (0x11 : Byte) ∈ recognizedOpcodes ∧ (0xFF : Byte) ∉ recognizedOpcodes ∧
    let s := st [(253, 0xFF)] resetRegs 253
    let t := st [(254, 0xFF)] resetRegs 254
    (s.running = true ∧ s.fault = none ∧ s.byteAt s.pc ∉ recognizedOpcodes ∧ s.pc ≤ 253) ∧
      t.running = true ∧ t.fault = none ∧ t.byteAt t.pc ∉ recognizedOpcodes ∧ 253 < t.pc := by decide
theorem witness_RegisterIndexAboveSevenFaults :
    let s := win 0xA2 7 8 resetRegs
    let t := win 0x11 8 0 resetRegs
    (s.running = true ∧ s.fault = none ∧ s.pc ≤ 253 ∧ s.byteAt s.pc ∈ ([0xA2, 0xA0] : List Byte) ∧
      (s.byteAt (s.pc + 1)).toNat ≤ 7 ∧ 7 < (s.byteAt (s.pc + 2)).toNat) ∧
    t.byteAt t.pc ∈ ([0x82, 0x47, 0xA2, 0xA0, 0x45, 0x46, 0x50, 0x11] : List Byte) ∧ 7 < (t.byteAt (t.pc + 1)).toNat := by
  decide
theorem witness_FaultsArePrecise :
    ∃ t r, step (win 0x47 9 0 resetRegs) = .next t ∧ t.fault = some r := ⟨_, _, rfl, rfl⟩
theorem witness_UnsupportedOperationIsNeverRaised :
    (∃ t r, exec (.mul 8 0) State.reset = .next t ∧ State.reset.fault = none ∧ t.fault = some r) ∧
      ∃ t r, step (win 0xA2 8 0 resetRegs) = .next t ∧ t.fault = some r := ⟨⟨_, _, rfl, rfl, rfl⟩, _, _, rfl, rfl⟩
theorem witness_RegistersOutsideTableRWAreUnchanged :
    ∃ t, exec (.ldi 3 42) State.reset = .next t ∧ mayWriteReg (.ldi 3 42) 2 = false := ⟨_, rfl, by decide⟩
/-- A storing form, seen at an address it does not store to, and a form that stores nothing. -/
theorem witness_MemoryOutsideTheStoredByteIsUnchanged :
    (∃ t, exec (.push 0) State.reset = .next t ∧
      ∀ a u, (Instr.push 0 = .push a ∨ Instr.push 0 = .call a) → spDec State.reset = .ok u → 244 ≠ u.sp.toNat) ∧
    ∃ t, exec .hlt State.reset = .next t ∧
      ∀ a u, (Instr.hlt = .push a ∨ Instr.hlt = .call a) → spDec State.reset = .ok u → 244 ≠ u.sp.toNat := by
  refine ⟨⟨_, rfl, fun a u _ hu => ?_⟩, _, rfl, fun a u h _ => ?_⟩
  · have h : (.ok (State.reset.setSp 243) : Except FaultCause State) = .ok u := hu
    cases h
    decide
  · rcases h with h | h <;> cases h
theorem witness_FlagOutputAndRecordFrame :
    ∃ t, exec (.ldi 8 0) State.reset = .next t ∧ Instr.ldi 8 0 ≠ .hlt ∧ ∀ a, Instr.ldi 8 0 ≠ .prn a :=
  ⟨_, rfl, by decide, fun a h => by cases h⟩
theorem witness_OnlyCallAndRetTransferControl :
    ∃ t, exec .hlt State.reset = .next t ∧ State.reset.fault = none ∧ t.fault = none ∧
      fixedAdvance .hlt State.reset.params = some 0 := ⟨_, rfl, rfl, rfl, rfl⟩
theorem witness_EveryStepKeepsTheInvariant :
    (st [(253, 0x82), (254, 0), (255, 5)] resetRegs 253).Inv ∧
      ∃ t, step (st [(253, 0x82), (254, 0), (255, 5)] resetRegs 253) = .next t := ⟨by decide, _, rfl⟩
theorem witness_EveryLaunchMeetsTheInvariant : ∃ s, State.launch Config.Params.default [0x01] = .next s := ⟨_, rfl⟩
theorem witness_HaltedIsTerminal :
    ∃ t, exec (.prn 0) State.reset.clearRunning = .next t ∧ State.reset.clearRunning.running = false := ⟨_, rfl, rfl⟩
theorem witness_OnlyHltClearsRunning :
    ∃ t, step (win 0x01 0 0 resetRegs) = .next t ∧ t.running = false := ⟨_, rfl, rfl⟩
/-- A step that emits, and one that does not. -/
theorem witness_OnlyPrnEmits :
    (∃ t, step (win 0x47 7 0 resetRegs) = .next t ∧ t.out = [244]) ∧
      ∃ t, step (win 0x01 0 0 resetRegs) = .next t ∧ t.out = [] := ⟨⟨_, rfl, by decide⟩, _, rfl, rfl⟩
theorem witness_StoresAreSeenByTheNextFetch : 255 ≤ 255 ∧ 255 < 256 ∧ 253 ≤ 253 := by decide
/-- Two memories that agree on the window and the stack cell and differ elsewhere. -/
theorem witness_StepReadsOnlyTheWindowAndTheStackCell :
    let s := st [(0, 0x46), (1, 0), (2, 0), (9, 1), (244, 5)] resetRegs 0
    let m : Memory := [(0, 0x46), (1, 0), (2, 0), (9, 2), (244, 5)]
    (∀ k, k ≤ 2 → s.pc + k ≤ 255 → s.byteAt (s.pc + k) = Memory.read m (s.pc + k)) ∧
      s.byteAt s.x[7].toNat = Memory.read m s.x[7].toNat ∧ s.byteAt 9 ≠ Memory.read m 9 ∧ ∃ t, step s = .next t := by
  refine ⟨?_, by decide, by decide, _, rfl⟩
  intro k hk _
  match k, hk with
  | 0, _ => decide
  | 1, _ => decide
  | 2, _ => decide
theorem witness_PushThenPopRestoresTheRegisters : (7 : Byte).toNat < 8 ∧ (regs2 7 0 1 0)[7] ≠ 0 := by decide
theorem witness_PushAllThenPopAllRestoresTheRegisters : 8 ≤ (regs2 7 0 8 0)[7].toNat := by decide
theorem witness_PushThenPopMovesARegister :
    (7 : Byte).toNat < 8 ∧ (6 : Byte).toNat < 7 ∧ (regs2 7 0 1 0)[7] ≠ 0 := by decide
theorem witness_PushThenRetJumpsIndirectly :
    (7 : Byte).toNat < 8 ∧ (6 : Byte).toNat < 7 ∧ (regs2 7 0 1 0)[7] ≠ 0 := by decide
/-- The call at 252, and the state right after it as the state of the return; S = 6 and S = 7. -/
theorem witness_BalancedCallReturnsPastTheCall :
    let s := st [] resetRegs 252
    s.fault = none ∧ s.pc ≤ 252 ∧ (6 : Byte).toNat < 7 ∧ (7 : Byte).toNat = 7 ∧
      ∃ t u : State, exec (.call 0) s = .next t ∧ t.fault = none ∧ u.x[7] = t.x[7] ∧
        u.byteAt t.x[7].toNat = t.byteAt t.x[7].toNat := by
  refine ⟨rfl, by decide, by decide, by decide, _, _, rfl, rfl, rfl, rfl⟩
/-- A CALL to 254 (CALL-9 has 255), and a RET to 255. -/
theorem witness_TargetsAtTheEndOfMemoryFaultAtTheNextFetch :
    (∃ t, exec (.call 1) (st [] (regs2 1 0 254 0) 3) = .next t ∧ t.fault = none ∧ 254 ≤ t.pc) ∧
      ∃ t, exec (.ret 1) (st [(244, 255)] resetRegs 3) = .next t ∧ t.fault = none ∧ 254 ≤ t.pc :=
  ⟨⟨_, rfl, rfl, by decide⟩, _, rfl, rfl, by decide⟩
/-- Clauses: a other than b, and a = b. -/
theorem witness_LiteralAddRepeatsForever :
    let s := { win 0xA0 0 1 (regs2 0 1 8 9) with params := { addPcAdvance := .zero, aluOverflow := .wrap } }
    let t := { win 0xA0 0 0 (regs2 0 1 8 9) with params := { addPcAdvance := .zero, aluOverflow := .wrap } }
    (s.running = true ∧ s.fault = none ∧ s.pc ≤ 253 ∧ s.byteAt s.pc = 0xA0 ∧ s.byteAt (s.pc + 1) = 0 ∧
      s.byteAt (s.pc + 2) = 1) ∧ t.byteAt t.pc = 0xA0 ∧ t.byteAt (t.pc + 1) = 0 ∧ t.byteAt (t.pc + 2) = 0 := by decide
/-- Two unrecognized bytes before 254, and a start at 254 itself. -/
theorem witness_UnrecognizedBytesRunOffTheEndOfMemory :
    let s := st [(252, 0x00), (253, 0xFF)] resetRegs 252
    (s.running = true ∧ s.fault = none ∧ s.pc ≤ 254 ∧ s.byteAt 252 ∉ recognizedOpcodes ∧ s.byteAt 253 ∉ recognizedOpcodes ∧
      ∀ c, s.pc ≤ c → c ≤ 253 → c = 252 ∨ c = 253) ∧ (st [] resetRegs 254).pc ≤ 254 := by
  refine ⟨⟨rfl, rfl, by decide, by decide, by decide, ?_⟩, by decide⟩
  intro c h1 h2
  have h3 : 252 ≤ c := h1
  omega
/-- A block without a record, and one with. -/
theorem witness_StatusPortGivesTheStatusAndTheRecord :
    State.reset.fault = none ∧
      (State.reset.withFault .operandOverlap 1 0x50).fault = some ⟨.operandOverlap, some 1, some 0x50, 0⟩ := by decide
theorem witness_AnEndedRunStaysEnded : ∀ u, runFor 0 State.reset.clearRunning ≠ .unfinished u := by
  intro u h
  cases h

end Sys2Proof.Machine.Tests
end

/-! SUPPORT. Register operands (00_scope.md R14, 30_encoding.md R82): which operand bytes of an instruction are register
indices, that its handler checks them before it does anything else, and what a step does at an index above 7. -/

namespace Sys2Proof

/-- The first operand byte of an instruction that has a register operand: the index its handler checks first. -/
def Instr.regOperand : Instr → Option Byte
  | .ldi a _ => some a
  | .prn a => some a
  | .hlt => none
  | .mul a _ => some a
  | .add a _ => some a
  | .push a => some a
  | .pop a => some a
  | .call a => some a
  | .ret a => some a
  | .unrecognized _ => none

/-- Both register operands, in the order they are checked, of the two instructions that have two. -/
def Instr.regOperands : Instr → Option (Byte × Byte)
  | .mul a b => some (a, b)
  | .add a b => some (a, b)
  | _ => none

/-- At the eight opcodes with a register operand, that operand is the whole byte after the opcode. -/
theorem decodeWindow_regOperand {op : Byte} (a b : Byte)
    (h : op ∈ ([0x82, 0x47, 0xA2, 0xA0, 0x45, 0x46, 0x50, 0x11] : List Byte)) :
    (decodeWindow op a b).regOperand = some a := by
  simp only [List.mem_cons, List.not_mem_nil, or_false] at h
  rcases h with rfl | rfl | rfl | rfl | rfl | rfl | rfl | rfl <;> rfl

/-- At the opcodes of MUL and ADD, the two register operands are the two whole bytes after the opcode. -/
theorem decodeWindow_regOperands {op : Byte} (a b : Byte) (h : op ∈ ([0xA2, 0xA0] : List Byte)) :
    (decodeWindow op a b).regOperands = some (a, b) := by
  simp only [List.mem_cons, List.not_mem_nil, or_false] at h
  rcases h with rfl | rfl <;> rfl

namespace Machine

/-- A handler whose instruction has a register operand begins with `CheckReg` of it. -/
theorem exec_checks_regOperand {i : Instr} {a : Byte} (h : i.regOperand = some a) (s : State) :
    ∃ f : RegName → Except FaultCause State, exec i s = commit s i.opcode (checkReg a >>= f) := by
  cases i with
  | ldi _ _ | prn _ | mul _ _ | add _ _ | push _ | pop _ | call _ | ret _ => cases h; exact ⟨_, rfl⟩
  | hlt | unrecognized _ => cases h

/-- MUL and ADD begin with `CheckReg` of the first operand and then of the second. -/
theorem exec_checks_regOperands {i : Instr} {a b : Byte} (h : i.regOperands = some (a, b)) (s : State) :
    ∃ f : RegName → RegName → Except FaultCause State,
      exec i s = commit s i.opcode (checkReg a >>= fun r => checkReg b >>= f r) := by
  cases i with
  | mul _ _ | add _ _ => cases h; exact ⟨_, rfl⟩
  | ldi _ _ | prn _ | hlt | push _ | pop _ | call _ | ret _ | unrecognized _ => cases h

theorem takeFault_causeRegister (s : State) (op a : Byte) :
    takeFault s (some op) (causeRegister a) = s.withFault (.outOfRangeAddress .register) a.toNat op := rfl

/-- A register operand above 7 faults, and the fault is all the handler does (60_exceptions.md R223). -/
theorem exec_of_regOperand_gt {i : Instr} {a : Byte} (h : i.regOperand = some a) (ha : 7 < a.toNat) (s : State) :
    exec i s = .next (s.withFault (.outOfRangeAddress .register) a.toNat i.opcode) := by
  obtain ⟨f, hf⟩ := exec_checks_regOperand h s
  rw [hf, checkReg_of_ge ha, bind_error, commit_error, takeFault_causeRegister]

/-- After a first operand that names a register, a second one above 7 faults in the same way. -/
theorem exec_of_second_regOperand_gt {i : Instr} {a b : Byte} (h : i.regOperands = some (a, b)) (ha : a.toNat < 8)
    (hb : 7 < b.toNat) (s : State) :
    exec i s = .next (s.withFault (.outOfRangeAddress .register) b.toNat i.opcode) := by
  obtain ⟨f, hf⟩ := exec_checks_regOperands h s
  rw [hf, checkReg_of_lt ha, bind_ok, checkReg_of_ge hb, bind_error, commit_error, takeFault_causeRegister]

/-- A running step with a valid window runs the decoded instruction (40_engine.md R105, R107). -/
theorem step_of_window {s : State} (hr : s.running = true) (hf : s.fault = none) (hp : s.pc ≤ 253) :
    step s = exec (decodeWindow (s.byteAt s.pc) (s.byteAt (s.pc + 1)) (s.byteAt (s.pc + 2))) s := by
  simp only [step, hr, hf, fetch_of_le hp]

/-- Settles O30: the step runs the decoded instruction, whose register operands are whole window bytes, and its handler
checks them, first before second, before it does anything else. -/
theorem registerIndexAboveSevenFaults : Obligations.RegisterIndexAboveSevenFaults := by
  unfold Obligations.RegisterIndexAboveSevenFaults
  refine ⟨fun i => ⟨checkReg_of_lt, checkReg_of_ge⟩, fun s hr hf hp => ⟨fun hop ha => ?_, fun hop ha hb => ?_⟩⟩
  · rw [step_of_window hr hf hp, exec_of_regOperand_gt (decodeWindow_regOperand _ _ hop) ha, decodeWindow_opcode]
  · rw [step_of_window hr hf hp,
      exec_of_second_regOperand_gt (decodeWindow_regOperands _ _ hop) (Nat.lt_succ_of_le ha) hb, decodeWindow_opcode]

end Machine

end Sys2Proof

/-! SUPPORT. Stores and the reads and fetches after them (20_memory.md R56, R57, R71): what the memory controller and the
fetch give in a state in which one cell was written. -/

namespace Sys2Proof.Machine

/-- Fetching at `p` reads the three cells from `p` on, wherever the program counter stood before (40_engine.md R108). -/
theorem fetch_setPc_of_le (s : State) {p : Nat} (hp : p ≤ 253) :
    fetch (s.setPc p) = .ok (s.byteAt p, s.byteAt (p + 1), s.byteAt (p + 2)) := fetch_of_le hp

/-- A read after a store gives the stored byte at the stored address, and the old byte elsewhere (20_memory.md R56, R57). -/
theorem memRead_setByte_of_le (s : State) (a : Nat) (v : Byte) {c : Nat} (hc : c ≤ 255) :
    memRead (s.setByte a v) c = .ok (if c = a then v else s.byteAt c) := by
  rw [memRead_of_le hc, State.byteAt_setByte]

/-- A fetch after a store sees the stored byte at each place of its window that is the stored address (20_memory.md R71). -/
theorem fetch_setByte_setPc_of_le (s : State) (a : Nat) (v : Byte) {p : Nat} (hp : p ≤ 253) :
    fetch ((s.setByte a v).setPc p) =
      .ok (if p = a then v else s.byteAt p, if p + 1 = a then v else s.byteAt (p + 1),
           if p + 2 = a then v else s.byteAt (p + 2)) := by
  rw [fetch_setPc_of_le _ hp]
  simp only [State.byteAt_setByte]

/-- Settles O43: above 255 neither access is performed; up to 255 the write is `setByte`, and reads and fetches share the one
memory it writes. -/
theorem storesAreSeenByTheNextFetch : Obligations.StoresAreSeenByTheNextFetch := by
  unfold Obligations.StoresAreSeenByTheNextFetch
  refine fun s a v => ⟨fun ha => ⟨memWrite_of_gt ha, memRead_of_gt ha⟩, fun ha => ⟨memRead_of_le ha, ?_⟩⟩
  exact ⟨s.setByte a v, memWrite_of_le ha, fun c hc => memRead_setByte_of_le s a v hc,
    fun p hp => fetch_setByte_setPc_of_le s a v hp⟩

end Sys2Proof.Machine

/-! SUPPORT. The dispatch on the opcode byte (30_encoding.md R86, R89, R93): what the decoder gives at each of the nine
opcodes of Table O and at every other byte, the lengths of Table L, and the step at an unrecognized byte. -/

namespace Sys2Proof

@[simp] theorem decodeWindow_opLdi (a b : Byte) : decodeWindow opLdi a b = .ldi a b := rfl
@[simp] theorem decodeWindow_opPrn (a b : Byte) : decodeWindow opPrn a b = .prn a := rfl
@[simp] theorem decodeWindow_opHlt (a b : Byte) : decodeWindow opHlt a b = .hlt := rfl
@[simp] theorem decodeWindow_opMul (a b : Byte) : decodeWindow opMul a b = .mul a b := rfl
@[simp] theorem decodeWindow_opAdd (a b : Byte) : decodeWindow opAdd a b = .add a b := rfl
@[simp] theorem decodeWindow_opPush (a b : Byte) : decodeWindow opPush a b = .push a := rfl
@[simp] theorem decodeWindow_opPop (a b : Byte) : decodeWindow opPop a b = .pop a := rfl
@[simp] theorem decodeWindow_opCall (a b : Byte) : decodeWindow opCall a b = .call a := rfl
@[simp] theorem decodeWindow_opRet (a b : Byte) : decodeWindow opRet a b = .ret a := rfl

/-- The list of WellFormed and the constants the decoder compares with are the same nine bytes (R86). -/
theorem mem_recognizedOpcodes {op : Byte} : op ∈ recognizedOpcodes ↔
    op = opLdi ∨ op = opPrn ∨ op = opHlt ∨ op = opMul ∨ op = opAdd ∨ op = opPush ∨ op = opPop ∨ op = opCall ∨
      op = opRet := by
  simp only [recognizedOpcodes, List.mem_cons, List.not_mem_nil, or_false, opLdi, opPrn, opHlt, opMul, opAdd, opPush,
    opPop, opCall, opRet]

/-- A byte outside Table O passes all nine comparisons of the decoder and is the skip (R93). -/
theorem decodeWindow_of_not_mem {op : Byte} (h : op ∉ recognizedOpcodes) (a b : Byte) :
    decodeWindow op a b = .unrecognized op := by
  simp only [mem_recognizedOpcodes, not_or] at h
  simp only [decodeWindow, h, if_false]

/-- The numbers of the nine opcodes. -/
theorem mem_recognizedOpcodes_iff_toNat {op : Byte} : op ∈ recognizedOpcodes ↔
    op.toNat = 0x82 ∨ op.toNat = 0x47 ∨ op.toNat = 0x01 ∨ op.toNat = 0xA2 ∨ op.toNat = 0xA0 ∨ op.toNat = 0x45 ∨
      op.toNat = 0x46 ∨ op.toNat = 0x50 ∨ op.toNat = 0x11 := by
  simp only [mem_recognizedOpcodes, ← BitVec.toNat_inj]
  exact Iff.rfl

/-- Table L as a function of the opcode byte: three bytes for LDI, MUL and ADD, two for the other opcodes with an operand,
one for HLT and for the skip. -/
theorem decodeWindow_length (op a b : Byte) : (decodeWindow op a b).length =
    if op ∈ [130, 162, 160] then 3 else if op ∈ [71, 69, 70, 80, 17] then 2 else 1 := by
  by_cases hop : op ∈ recognizedOpcodes
  · rcases mem_recognizedOpcodes.mp hop with rfl | rfl | rfl | rfl | rfl | rfl | rfl | rfl | rfl <;> rfl
  · have three : ([130, 162, 160] : List Byte) ⊆ recognizedOpcodes := by decide
    have two : ([71, 69, 70, 80, 17] : List Byte) ⊆ recognizedOpcodes := by decide
    rw [decodeWindow_of_not_mem hop, if_neg fun h => hop (three h), if_neg fun h => hop (two h)]
    rfl

/-- Settles O8: one equation of the decoder per row of Table O, and the one for the bytes outside it. -/
theorem dispatchFollowsTableO : Obligations.DispatchFollowsTableO := by
  unfold Obligations.DispatchFollowsTableO
  refine fun op a b => ⟨?_, ?_, ?_, ?_, ?_, ?_, ?_, ?_, ?_, fun hop => decodeWindow_of_not_mem hop a b⟩
  · rintro rfl; exact decodeWindow_opLdi a b
  · rintro rfl; exact decodeWindow_opPrn a b
  · rintro rfl; exact decodeWindow_opHlt a b
  · rintro rfl; exact decodeWindow_opMul a b
  · rintro rfl; exact decodeWindow_opAdd a b
  · rintro rfl; exact decodeWindow_opPush a b
  · rintro rfl; exact decodeWindow_opPop a b
  · rintro rfl; exact decodeWindow_opCall a b
  · rintro rfl; exact decodeWindow_opRet a b

/-- Settles O11: Table L's length mentions no operand byte. -/
theorem opcodeAloneFixesTheLength : Obligations.OpcodeAloneFixesTheLength := by
  unfold Obligations.OpcodeAloneFixesTheLength
  intro op a b a' b'
  exact ⟨(decodeWindow_length op a b).trans (decodeWindow_length op a' b').symm, decodeWindow_length op a b⟩

namespace Machine

/-- The skip commits the advance by one byte (R93). -/
theorem exec_unrecognized (op : Byte) (s : State) : exec (.unrecognized op) s = .next (s.advance 1) := rfl

/-- Every fetch that begins above 253 fails on a memory address (40_engine.md R107). -/
theorem fetch_fails_on_memory {s : State} (hp : 253 < s.pc) :
    ∃ addr op, fetch s = .error ⟨causeMemory addr, op⟩ := by
  rcases Nat.lt_or_ge 255 s.pc with h | h
  · exact ⟨_, _, fetch_of_gt h⟩
  · exact ⟨_, _, fetch_of_partial (by omega)⟩

/-- Settles O27: the ranges are the complement of nine numbers below 256; the step decodes such a byte to the skip, unless
its fetch has already failed. -/
theorem unrecognizedOpcodesAreSkippedSilently : Obligations.UnrecognizedOpcodesAreSkippedSilently := by
  unfold Obligations.UnrecognizedOpcodesAreSkippedSilently
  refine ⟨fun op => ?_, fun s hr hf hop => ⟨fun hp => ?_, fun hp => ?_⟩⟩
  · have hlt := op.isLt
    rw [mem_recognizedOpcodes_iff_toNat]
    omega
  · rw [step_of_window hr hf hp, decodeWindow_of_not_mem hop, exec_unrecognized]
    rfl
  · obtain ⟨addr, op, h⟩ := fetch_fails_on_memory hp
    exact ⟨_, step_of_fetch_error hr hf h, rfl⟩

end Machine

end Sys2Proof

/-! SUPPORT. The step loop (40_engine.md R105 to R108, R116, R118): the step on a valid and on a failing window, the climb
through unrecognized bytes, and the observation of a run that has ended. -/

namespace Sys2Proof.Machine

/-- What a whole window decodes to is the decoder's instruction for its three bytes (30_encoding.md R80). -/
theorem eq_decodeWindow_of_decode {op a b : Byte} {i : Instr} {rest : List Byte}
    (h : decode [op, a, b] = .ok (i, rest)) : i = decodeWindow op a b := by
  cases h
  rfl

/-- Settles O14: with a valid window the step is `exec` of the decoded instruction, and a byte outside Table O decodes to
the skip. -/
theorem stepRunsTheDecodedInstruction : Obligations.StepRunsTheDecodedInstruction := by
  unfold Obligations.StepRunsTheDecodedInstruction
  intro s hr hf hp
  have hstep := step_of_window hr hf hp
  refine ⟨hstep, fun i rest hi => ?_, fun hop => ?_⟩
  · rw [eq_decodeWindow_of_decode hi, hstep]
  · rw [hstep, decodeWindow_of_not_mem hop]

/-- At 254 and 255 the window's first failing address is 256, and the first byte can still be read (40_engine.md R107). -/
theorem step_of_partial_window {s : State} (hr : s.running = true) (hf : s.fault = none) (hp : s.pc = 254 ∨ s.pc = 255) :
    step s = .next (s.withFault (.outOfRangeAddress .memory) 256 (s.byteAt s.pc)) :=
  step_of_fetch_error hr hf (fetch_of_partial hp)

/-- Settles O15: the three cases of the window check, the failing ones taken as a fault by the step. -/
theorem fetchBeyondMemoryFaults : Obligations.FetchBeyondMemoryFaults := by
  unfold Obligations.FetchBeyondMemoryFaults
  intro s hr hf
  exact ⟨step_of_partial_window hr hf, fun hp => step_of_fetch_error hr hf (fetch_of_gt hp),
    fun hp => ⟨_, fetch_of_le hp⟩⟩

/-- A step at an unrecognized byte with a valid window advances by one (30_encoding.md R93). -/
theorem step_of_unrecognized {s : State} (hr : s.running = true) (hf : s.fault = none) (hp : s.pc ≤ 253)
    (hop : s.byteAt s.pc ∉ recognizedOpcodes) : step s = .next (s.advance 1) := by
  rw [step_of_window hr hf hp, decodeWindow_of_not_mem hop, exec_unrecognized]

theorem State.advance_advance (s : State) (m n : Nat) : (s.advance m).advance n = s.advance (m + n) := by
  simp only [State.advance, State.setPc, Nat.add_assoc]

/-- As many steps as there are unrecognized bytes ahead below 254 advance by as many bytes. -/
theorem stepN_of_unrecognized (n : Nat) : ∀ s : State, s.running = true → s.fault = none → s.pc + n ≤ 254 →
    (∀ c, s.pc ≤ c → c < s.pc + n → s.byteAt c ∉ recognizedOpcodes) → stepN n s = .next (s.advance n) := by
  induction n with
  | zero => exact fun _ _ _ _ _ => rfl
  | succ n ih =>
    intro s hr hf hp hops
    have hstep : step s = .next (s.advance 1) :=
      step_of_unrecognized hr hf (by omega) (hops s.pc le_rfl (by omega))
    rw [stepN_succ_of_next hstep, Nat.add_comm n 1, ← State.advance_advance]
    refine ih (s.advance 1) hr hf ?_ fun c hlo hhi => hops c ?_ ?_
    all_goals simp only [State.advance_pc] at *; omega

/-- Settles O52: the climb takes one step per byte up to 253, and the step at 254 has a window that leaves memory. -/
theorem unrecognizedBytesRunOffTheEndOfMemory : Obligations.UnrecognizedBytesRunOffTheEndOfMemory := by
  unfold Obligations.UnrecognizedBytesRunOffTheEndOfMemory
  intro s hr hf hp hops
  have hend : s.pc + (254 - s.pc) = 254 := by omega
  refine ⟨?_, step_of_partial_window (s := s.setPc 254) hr hf (.inl rfl)⟩
  have hclimb := stepN_of_unrecognized (254 - s.pc) s hr hf hend.le fun c hlo hhi => hops c hlo (by omega)
  rw [State.advance, hend] at hclimb
  exact hclimb

/-- A state that still takes a step is observed as unfinished (40_engine.md R116). -/
theorem observe_of_step_next {s t : State} (h : step s = .next t) : s.observe = .unfinished s := by
  obtain ⟨hf, hr, -⟩ := step_next_cases h
  simp only [State.observe, hf, hr, if_true]

/-- Where no step is performed, a run of any length shows the state it started in. -/
theorem runFor_of_no_step {s : State} (h : ∀ t, step s ≠ .next t) (k : Nat) : runFor k s = s.observe := by
  cases k with
  | zero => rfl
  | succ k =>
    cases hs : step s with
    | next t => exact absurd hs (h t)
    | fault f | refused r => simp only [runFor, hs]

/-- Settles O53, by induction on the number of steps watched: a run that takes no step shows one observation at every
length, and one that takes a step is the run of the state it reaches. -/
theorem anEndedRunStaysEnded : Obligations.AnEndedRunStaysEnded := by
  unfold Obligations.AnEndedRunStaysEnded
  intro k m
  induction k with
  | zero =>
    intro s hend
    have hstop : ∀ t, step s ≠ .next t := fun t ht => hend s (observe_of_step_next ht)
    rw [runFor_of_no_step hstop, runFor_of_no_step hstop]
  | succ k ih =>
    intro s hend
    by_cases hnext : ∃ t, step s = .next t
    · obtain ⟨t, ht⟩ := hnext
      rw [runFor_succ_of_next ht] at hend
      rw [Nat.add_right_comm, runFor_succ_of_next ht, runFor_succ_of_next ht, ih t hend]
    · have hstop : ∀ t, step s ≠ .next t := not_exists.mp hnext
      rw [runFor_of_no_step hstop, runFor_of_no_step hstop]

end Sys2Proof.Machine

/-! SUPPORT. LDI, PRN and HLT (41_ldi_prn_hlt.md): the next state of each through the state operations its row names, and that
no step is performed once the running flag is down. -/

namespace Sys2Proof.Machine

/-- LDI at an index that names a register (R131). -/
theorem exec_ldi_of_lt {a : Byte} (h : a.toNat < 8) (v : Byte) (s : State) :
    exec (.ldi a v) s = .next ((s.setReg ⟨a.toNat, h⟩ v).advance 3) := by
  simp only [exec, execLdi, checkReg_of_lt h, bind_ok]
  rfl

/-- PRN at an index that names a register (R136). -/
theorem exec_prn_of_lt {a : Byte} (h : a.toNat < 8) (s : State) :
    exec (.prn a) s = .next ((s.emit (s.reg ⟨a.toNat, h⟩)).advance 2) := by
  simp only [exec, execPrn, checkReg_of_lt h, bind_ok]
  rfl

/-- HLT has no check that could fail (R141). -/
theorem exec_hlt (s : State) : exec .hlt s = .next s.clearRunning := rfl

/-- A step that answers a next state was taken with the running flag up, so none is where it is down (R39). -/
theorem step_ne_next_of_not_running {s : State} (h : s.running = false) (t : State) : step s ≠ .next t := by
  intro ht
  obtain ⟨-, hr, -⟩ := step_next_cases ht
  exact Bool.false_ne_true (h.symm.trans hr)

/-- Settles O17: up to 7 the two writes of LDI are `setReg` and `advance`; above 7 its register check faults. -/
theorem ldiLoadsTheImmediate : Obligations.LdiLoadsTheImmediate := by
  unfold Obligations.LdiLoadsTheImmediate
  exact fun s a v => ⟨fun h => exec_ldi_of_lt h v s, fun h => exec_of_regOperand_gt rfl h s⟩

/-- Settles O18: up to 7 the two writes of PRN are `emit` and `advance`; above 7 its register check faults before it emits. -/
theorem prnEmitsTheRegister : Obligations.PrnEmitsTheRegister := by
  unfold Obligations.PrnEmitsTheRegister
  exact fun s a => ⟨fun h => exec_prn_of_lt h s, fun h => exec_of_regOperand_gt rfl h s⟩

/-- Settles O19: HLT is `clearRunning`, and the state it leaves has the flag down. -/
theorem hltClearsRunningAndStops : Obligations.HltClearsRunningAndStops := by
  unfold Obligations.HltClearsRunningAndStops
  exact fun s => ⟨exec_hlt s, step_ne_next_of_not_running (s := s.clearRunning) rfl⟩

end Sys2Proof.Machine

/-! SUPPORT. The ALU and its two instructions (42_alu.md): the ALU under each policy, what MUL and ADD share once both register
checks have passed, and the run of an ADD that does not advance the program counter. -/

namespace Sys2Proof.Machine

/-- Under `fault` the exact result decides (R152). -/
theorem alu_fault (op : AluOp) (p q : Byte) : alu .fault op p q =
    if aluExact op p q > 255 then .error (causeOverflow (aluExact op p q)) else .ok (BitVec.ofNat 8 (aluExact op p q)) := rfl

/-- Settles O28: the equation of each policy, at each of the two operations. -/
theorem aluFollowsTheOverflowPolicy : Obligations.AluFollowsTheOverflowPolicy := by
  unfold Obligations.AluFollowsTheOverflowPolicy
  exact fun p q => ⟨alu_wrap .add p q, alu_wrap .mul p q, alu_fault .add p q, alu_fault .mul p q⟩

/-- Where the policy lets a result pass, it is the low byte of the exact one. -/
theorem alu_of_wrap_or_le {policy : Config.AluOverflow} {op : AluOp} {p q : Byte}
    (h : policy = .wrap ∨ aluExact op p q ≤ 255) :
    alu policy op p q = .ok (BitVec.ofNat 8 (aluExact op p q % 256)) := by
  rcases h with rfl | hle
  · exact alu_wrap op p q
  · rw [Nat.mod_eq_of_lt (Nat.lt_succ_of_le hle)]
    rcases alu_cases policy op p q with hok | ⟨-, hgt, -⟩
    · exact hok
    · exact absurd hle hgt.not_ge

/-- After both register checks, MUL and ADD do what the ALU does with the two registers (R157, R164). -/
theorem aluStep_of_lt {a b : Byte} (ha : a.toNat < 8) (hb : b.toNat < 8) (op : AluOp) (n : Nat) (s : State) :
    aluStep op a b n s = alu s.params.aluOverflow op (s.reg ⟨a.toNat, ha⟩) (s.reg ⟨b.toNat, hb⟩) >>=
      fun v => .ok ((s.setReg ⟨a.toNat, ha⟩ v).advance n) := by
  simp only [aluStep, checkReg_of_lt ha, checkReg_of_lt hb, bind_ok]
  rfl

/-- A result the policy lets pass is written to the first register, and the program counter advances. -/
theorem aluStep_of_wrap_or_le {a b : Byte} (ha : a.toNat < 8) (hb : b.toNat < 8) (op : AluOp) (n : Nat) {s : State}
    (h : s.params.aluOverflow = .wrap ∨ aluExact op (s.reg ⟨a.toNat, ha⟩) (s.reg ⟨b.toNat, hb⟩) ≤ 255) :
    aluStep op a b n s = .ok ((s.setReg ⟨a.toNat, ha⟩ (BitVec.ofNat 8
      (aluExact op (s.reg ⟨a.toNat, ha⟩) (s.reg ⟨b.toNat, hb⟩) % 256))).advance n) := by
  rw [aluStep_of_lt ha hb, alu_of_wrap_or_le h, bind_ok]

/-- A result the policy does not let pass ends the handler with its exact value. -/
theorem aluStep_of_fault_of_gt {a b : Byte} (ha : a.toNat < 8) (hb : b.toNat < 8) (op : AluOp) (n : Nat) {s : State}
    (hp : s.params.aluOverflow = .fault) (h : 255 < aluExact op (s.reg ⟨a.toNat, ha⟩) (s.reg ⟨b.toNat, hb⟩)) :
    aluStep op a b n s = .error (causeOverflow (aluExact op (s.reg ⟨a.toNat, ha⟩) (s.reg ⟨b.toNat, hb⟩))) := by
  rw [aluStep_of_lt ha hb, hp, alu_fault_of_gt h, bind_error]

theorem takeFault_causeOverflow (s : State) (op : Byte) (r : Nat) :
    takeFault s (some op) (causeOverflow r) = s.withFault .arithmeticOverflow r op := rfl

theorem exec_mul (a b : Byte) (s : State) : exec (.mul a b) s = commit s opMul (aluStep .mul a b 3 s) := rfl

theorem exec_add (a b : Byte) (s : State) :
    exec (.add a b) s = commit s opAdd (aluStep .add a b s.params.addPcAdvance.bytes s) := rfl

/-- Settles O20: the two register checks in order, then the two outcomes of the shared ALU step. -/
theorem mulWritesTheProduct : Obligations.MulWritesTheProduct := by
  unfold Obligations.MulWritesTheProduct
  refine fun s a b => ⟨fun ha => exec_of_regOperand_gt rfl ha s, fun ha =>
    ⟨fun hb => exec_of_second_regOperand_gt rfl ha hb s, fun hb => ⟨fun hfits => ?_, fun hpol hover => ?_⟩⟩⟩
  · rw [exec_mul, aluStep_of_wrap_or_le ha hb .mul 3 hfits, commit_ok]
    rfl
  · rw [exec_mul, aluStep_of_fault_of_gt ha hb .mul 3 hpol hover, commit_error, takeFault_causeOverflow]
    rfl

/-- `ADD_PC_ADVANCE` is 3 or 0 (R165). -/
theorem addPcAdvance_bytes (p : Config.AddPcAdvance) : p.bytes = if p = .three then 3 else 0 := by
  cases p <;> rfl

/-- Settles O21: as for MUL, with the advance of the setting. -/
theorem addWritesTheSum : Obligations.AddWritesTheSum := by
  unfold Obligations.AddWritesTheSum
  refine fun s a b => ⟨fun ha => exec_of_regOperand_gt rfl ha s, fun ha =>
    ⟨fun hb => exec_of_second_regOperand_gt rfl ha hb s, fun hb => ⟨fun hfits => ?_, fun hpol hover => ?_⟩⟩⟩
  · rw [exec_add, aluStep_of_wrap_or_le ha hb .add _ hfits, commit_ok, addPcAdvance_bytes]
    rfl
  · rw [exec_add, aluStep_of_fault_of_gt ha hb .add _ hpol hover, commit_error, takeFault_causeOverflow]
    rfl

/-! The literal ADD: with an advance of 0 the step leaves the machine at the same ADD (R166). -/

theorem State.setReg_setReg (s : State) (r : RegName) (v w : Byte) : (s.setReg r v).setReg r w = s.setReg r w := by
  simp only [State.setReg, Vector.set_set]

theorem State.setReg_reg_self (s : State) (r : RegName) : s.setReg r (s.reg r) = s := by
  simp only [State.setReg, State.reg, Fin.getElem_fin, Vector.set_getElem_self]

/-- The machine is running at an ADD of `a` and `b`, under `ADD_PC_ADVANCE = 0` and `wrap`. -/
structure AtLiteralAdd (s : State) (a b : Byte) : Prop where
  params : s.params = { addPcAdvance := .zero, aluOverflow := .wrap }
  running : s.running = true
  noFault : s.fault = none
  window : s.pc ≤ 253
  opcode : s.byteAt s.pc = opAdd
  first : s.byteAt (s.pc + 1) = a
  second : s.byteAt (s.pc + 2) = b

/-- A register write moves neither the program counter nor the bytes at it. -/
theorem AtLiteralAdd.setReg {s : State} {a b : Byte} (h : AtLiteralAdd s a b) (r : RegName) (v : Byte) :
    AtLiteralAdd (s.setReg r v) a b :=
  ⟨h.params, h.running, h.noFault, h.window, h.opcode, h.first, h.second⟩

/-- The low byte of the exact sum is the sum of bytes (R154). -/
theorem ofNat_aluExact_add (p q : Byte) : BitVec.ofNat 8 (aluExact .add p q % 256) = p + q :=
  BitVec.eq_of_toNat_eq (by simp [aluExact])

/-- One step of a literal ADD is the register write alone. -/
theorem AtLiteralAdd.step_eq {s : State} {a b : Byte} (h : AtLiteralAdd s a b) (ha : a.toNat < 8) (hb : b.toNat < 8) :
    step s = .next (s.setReg ⟨a.toNat, ha⟩ (s.reg ⟨a.toNat, ha⟩ + s.reg ⟨b.toNat, hb⟩)) := by
  have hwrap : s.params.aluOverflow = .wrap := by rw [h.params]
  have hzero : s.params.addPcAdvance.bytes = 0 := by rw [h.params]; rfl
  rw [step_of_window h.running h.noFault h.window, h.opcode, h.first, h.second, decodeWindow_opAdd, exec_add, hzero,
    aluStep_of_wrap_or_le ha hb .add 0 (.inl hwrap), commit_ok, ofNat_aluExact_add]
  rfl

/-- What `k` additions of `x[q]` into `x[r]` leave there (R166), where both begin as in `s`. -/
def addedTimes (k : Nat) (s : State) (r q : RegName) : Byte :=
  BitVec.ofNat 8 (if r = q then (s.reg r).toNat * 2 ^ k else (s.reg r).toNat + k * (s.reg q).toNat)

theorem addedTimes_zero (s : State) (r q : RegName) : addedTimes 0 s r q = s.reg r := by
  simp [addedTimes]

/-- An addition followed by `k` more is `k + 1` additions: `x[q]` is the register that doubles, or stays. -/
theorem addedTimes_setReg (k : Nat) (s : State) (r q : RegName) :
    addedTimes k (s.setReg r (s.reg r + s.reg q)) r q = addedTimes (k + 1) s r q := by
  by_cases hrq : r = q
  · subst hrq
    have hdouble : s.reg r + s.reg r = s.reg r * BitVec.ofNat 8 2 := (mul_two _).symm
    simp only [addedTimes, State.reg_setReg, if_true, BitVec.ofNat_mul, BitVec.ofNat_toNat, pow_succ', ← mul_assoc,
      BitVec.setWidth_eq, hdouble]
  · simp only [addedTimes, State.reg_setReg, hrq, if_true, if_false, BitVec.ofNat_add, BitVec.ofNat_toNat, add_mul,
      one_mul, BitVec.setWidth_eq, add_assoc, add_comm (s.reg q)]

/-- Any number of steps of a literal ADD, by induction on it: each leaves the machine at the same ADD. -/
theorem AtLiteralAdd.stepN_eq {a b : Byte} (ha : a.toNat < 8) (hb : b.toNat < 8) (k : Nat) :
    ∀ {s : State}, AtLiteralAdd s a b →
      stepN k s = .next (s.setReg ⟨a.toNat, ha⟩ (addedTimes k s ⟨a.toNat, ha⟩ ⟨b.toNat, hb⟩)) := by
  induction k with
  | zero =>
    intro s _
    rw [addedTimes_zero, State.setReg_reg_self]
    rfl
  | succ k ih =>
    intro s h
    rw [stepN_succ_of_next (h.step_eq ha hb), ih (h.setReg _ _), State.setReg_setReg, addedTimes_setReg]

/-- Settles O51: the run of a literal ADD, whose two register names are equal exactly when its operand bytes are. -/
theorem literalAddRepeatsForever : Obligations.LiteralAddRepeatsForever := by
  unfold Obligations.LiteralAddRepeatsForever
  intro k s a b ha hb hparams hr hf hp hop hfst hsnd
  have hrun := AtLiteralAdd.stepN_eq ha hb k ⟨hparams, hr, hf, hp, hop, hfst, hsnd⟩
  simp only [addedTimes, Fin.mk.injEq, BitVec.toNat_inj] at hrun
  exact hrun

end Sys2Proof.Machine

/-! SUPPORT. PUSH and POP (43_stack.md): the state each of them commits, what it reads as, and the nested pushes and pops
that the laws of the pair speak of. -/

namespace Sys2Proof.Machine

/-! PUSH -/

@[simp] theorem State.sp_setSp (s : State) (v : Byte) : (s.setSp v).sp = v :=
  State.reg_setReg s Config.spIndex Config.spIndex v

theorem State.x_set_sp_self (s : State) : s.x.set 7 s.sp = s.x := Vector.set_getElem_self _

theorem eq_spIndex_iff {r : RegName} : r = Config.spIndex ↔ r.val = 7 := Fin.ext_iff

/-- The state a PUSH of `x[r]` commits: the decrement, the store of the register as it then stands, the advance (R176). -/
def State.pushed (s : State) (r : RegName) : State :=
  ((s.setSp (s.sp - 1)).setByte (s.sp - 1).toNat ((s.setSp (s.sp - 1)).reg r)).advance 2

@[simp] theorem State.pushed_x (s : State) (r : RegName) : (s.pushed r).x = s.x.set 7 (s.sp - 1) := rfl
@[simp] theorem State.pushed_pc (s : State) (r : RegName) : (s.pushed r).pc = s.pc + 2 := rfl
@[simp] theorem State.pushed_running (s : State) (r : RegName) : (s.pushed r).running = s.running := rfl
@[simp] theorem State.pushed_fault (s : State) (r : RegName) : (s.pushed r).fault = s.fault := rfl
@[simp] theorem State.pushed_out (s : State) (r : RegName) : (s.pushed r).out = s.out := rfl
@[simp] theorem State.pushed_params (s : State) (r : RegName) : (s.pushed r).params = s.params := rfl
@[simp] theorem State.pushed_sp (s : State) (r : RegName) : (s.pushed r).sp = s.sp - 1 :=
  State.sp_setSp s (s.sp - 1)

theorem State.reg_pushed (s : State) (r q : RegName) :
    (s.pushed r).reg q = if q.val = 7 then s.sp - 1 else s.reg q :=
  (State.reg_setReg s Config.spIndex q (s.sp - 1)).trans (if_congr (eq_comm.trans eq_spIndex_iff) rfl rfl)

/-- The cell below the old stack pointer holds the pushed register as it stands after the PUSH; no other cell changes. -/
theorem State.byteAt_pushed (s : State) (r : RegName) (c : Nat) :
    (s.pushed r).byteAt c = if c = (s.sp - 1).toNat then (s.pushed r).reg r else s.byteAt c :=
  State.byteAt_setByte _ _ _ _

theorem exec_push_of_sp_ne {a : Byte} (h : a.toNat < 8) {s : State} (hsp : s.sp ≠ 0) :
    exec (.push a) s = .next (s.pushed ⟨a.toNat, h⟩) := by
  simp only [exec, execPush, checkReg_of_lt h, spDec_of_ne hsp, bind_ok, memWrite_byte, State.sp_setSp]
  rfl

theorem takeFault_causeStack (s : State) (op : Byte) (v : Int) :
    takeFault s (some op) (causeStack v) = s.withFault (.outOfRangeAddress .stack) v op := rfl

theorem exec_push_of_sp_zero {a : Byte} (h : a.toNat < 8) {s : State} (hsp : s.sp = 0) :
    exec (.push a) s = .next (s.withFault (.outOfRangeAddress .stack) (-1) opPush) := by
  simp only [exec, execPush, checkReg_of_lt h, spDec_of_zero hsp, bind_ok, bind_error, commit_error,
    takeFault_causeStack]

/-- Settles O22: the register check, then the two outcomes of the decrement; the store cannot fail. -/
theorem pushStoresBelowTheStackPointer : Obligations.PushStoresBelowTheStackPointer := by
  unfold Obligations.PushStoresBelowTheStackPointer
  refine fun s a => ⟨fun ha => exec_of_regOperand_gt rfl ha s, fun ha =>
    ⟨exec_push_of_sp_zero ha, fun hsp =>
      ⟨s.pushed ⟨a.toNat, ha⟩, exec_push_of_sp_ne ha hsp, rfl, rfl, rfl, rfl, rfl, rfl, fun c => ?_⟩⟩⟩
  rw [State.byteAt_pushed, State.reg_pushed]
  rfl

/-! POP -/

/-- The state after POP's load, before its increment (R183). -/
def State.loaded (s : State) (r : RegName) : State := s.setReg r (s.byteAt s.sp.toNat)

/-- The state a POP into `x[r]` commits: the load, the increment of `x[7]` as it then stands, the advance (R183). -/
def State.popped (s : State) (r : RegName) : State := ((s.loaded r).setSp ((s.loaded r).sp + 1)).advance 2

@[simp] theorem State.popped_x (s : State) (r : RegName) :
    (s.popped r).x = (s.x.set r (s.byteAt s.sp.toNat)).set 7 ((s.loaded r).sp + 1) := rfl
@[simp] theorem State.popped_pc (s : State) (r : RegName) : (s.popped r).pc = s.pc + 2 := rfl
@[simp] theorem State.popped_running (s : State) (r : RegName) : (s.popped r).running = s.running := rfl
@[simp] theorem State.popped_fault (s : State) (r : RegName) : (s.popped r).fault = s.fault := rfl
@[simp] theorem State.popped_out (s : State) (r : RegName) : (s.popped r).out = s.out := rfl
@[simp] theorem State.popped_params (s : State) (r : RegName) : (s.popped r).params = s.params := rfl
@[simp] theorem State.byteAt_popped (s : State) (r : RegName) (c : Nat) : (s.popped r).byteAt c = s.byteAt c := rfl

/-- The load moves the stack pointer only where it loads into it (R185). -/
theorem State.loaded_sp (s : State) (r : RegName) :
    (s.loaded r).sp = if r.val = 7 then s.byteAt s.sp.toNat else s.sp :=
  (State.reg_setReg s r Config.spIndex (s.byteAt s.sp.toNat)).trans (if_congr eq_spIndex_iff rfl rfl)

theorem exec_pop_of_sp_ne {a : Byte} (h : a.toNat < 8) {s : State} (hsp : (s.loaded ⟨a.toNat, h⟩).sp ≠ 255) :
    exec (.pop a) s = .next (s.popped ⟨a.toNat, h⟩) := by
  have hinc : spInc (s.setReg ⟨a.toNat, h⟩ (s.byteAt s.sp.toNat)) = _ := spInc_of_ne hsp
  simp only [exec, execPop, checkReg_of_lt h, memRead_byte, bind_ok, hinc]
  rfl

theorem exec_pop_of_sp_max {a : Byte} (h : a.toNat < 8) {s : State} (hsp : (s.loaded ⟨a.toNat, h⟩).sp = 255) :
    exec (.pop a) s = .next (s.withFault (.outOfRangeAddress .stack) 256 opPop) := by
  have hinc : spInc (s.setReg ⟨a.toNat, h⟩ (s.byteAt s.sp.toNat)) = _ := spInc_of_max hsp
  simp only [exec, execPop, checkReg_of_lt h, memRead_byte, bind_ok, hinc, bind_error, commit_error,
    takeFault_causeStack]

/-- Settles O23: the register check, then the two outcomes of the increment after the load; the load cannot fail. -/
theorem popLoadsThenIncrements : Obligations.PopLoadsThenIncrements := by
  unfold Obligations.PopLoadsThenIncrements
  refine fun s a => ⟨fun ha => exec_of_regOperand_gt rfl ha s, fun ha => ?_⟩
  have hsp : (s.loaded ⟨a.toNat, ha⟩).sp = if a.toNat = 7 then s.byteAt s.x[7].toNat else s.x[7] := State.loaded_sp s _
  rw [← hsp]
  exact ⟨exec_pop_of_sp_max ha, exec_pop_of_sp_ne ha⟩

/-! The laws of the pair. -/

theorem byte_sub_one_ne_max {v : Byte} (h : v ≠ 0) : v - 1 ≠ 255 := by
  bv_omega

theorem byte_toNat_sub_one {v : Byte} (h : v ≠ 0) : (v - 1).toNat = v.toNat - 1 := by
  bv_omega

/-- Where the cell at the stack pointer already holds the register, POP's load changes nothing. -/
theorem State.loaded_eq_self {s : State} {r : RegName} (h : s.byteAt s.sp.toNat = s.reg r) : s.loaded r = s := by
  rw [State.loaded, h, State.setReg_reg_self]

theorem execAll_append_of_next {is : List Instr} {t : State} (js : List Instr) :
    ∀ {s : State}, execAll is s = .next t → execAll (is ++ js) s = execAll js t := by
  induction is with
  | nil =>
    intro s h
    cases h
    rfl
  | cons i is ih =>
    intro s h
    cases hi : exec i s with
    | next u =>
      rw [execAll_cons_of_next hi] at h
      rw [List.cons_append, execAll_cons_of_next hi, ih h]
    | fault f | refused f =>
      simp only [execAll, hi] at h
      cases h

theorem execAll_singleton_of_next {i : Instr} {s t : State} (h : exec i s = .next t) : execAll [i] s = .next t :=
  execAll_cons_of_next h []

/-- The registers pushed in the order of the list, then popped in the opposite order. -/
def pushAllPopAll : List Byte → List Instr
  | [] => []
  | a :: as => .push a :: (pushAllPopAll as ++ [.pop a])

/-- From `s` the instructions complete in `t` after `n` bytes with the registers and the record as before, and with every
cell from the stack pointer up as before. -/
structure Restores (is : List Instr) (n : Nat) (s t : State) : Prop where
  run : execAll is s = .next t
  x : t.x = s.x
  pc : t.pc = s.pc + n
  fault : t.fault = s.fault
  above : ∀ c, s.sp.toNat ≤ c → t.byteAt c = s.byteAt c

/-- A POP undoes the PUSH of the same register, r7 included, across whatever kept the registers and the stack in between:
the popped cell holds the register as it stands, so the POP is the increment alone. -/
theorem Restores.push_pop {is : List Instr} {n : Nat} {s t : State} {a : Byte} (ha : a.toNat < 8) (hsp : s.sp ≠ 0)
    (h : Restores is n (s.pushed ⟨a.toNat, ha⟩) t) :
    Restores (.push a :: (is ++ [.pop a])) (n + 4) s (t.popped ⟨a.toNat, ha⟩) := by
  have hregs (q : RegName) : t.reg q = (s.pushed ⟨a.toNat, ha⟩).reg q := by rw [State.reg, h.x, State.reg]
  have htsp : t.sp = s.sp - 1 := (hregs Config.spIndex).trans (State.pushed_sp s _)
  have hcell : t.byteAt t.sp.toNat = t.reg ⟨a.toNat, ha⟩ := by
    rw [htsp, h.above _ (by rw [State.pushed_sp]), State.byteAt_pushed, if_pos rfl, hregs]
  have hload : t.loaded ⟨a.toNat, ha⟩ = t := State.loaded_eq_self hcell
  refine ⟨?_, ?_, ?_, h.fault, fun c hc => ?_⟩
  · have hpop : exec (.pop a) t = .next (t.popped ⟨a.toNat, ha⟩) :=
      exec_pop_of_sp_ne ha (by rw [hload, htsp]; exact byte_sub_one_ne_max hsp)
    rw [execAll_cons_of_next (exec_push_of_sp_ne ha hsp), execAll_append_of_next _ h.run,
      execAll_singleton_of_next hpop]
  · calc (t.popped ⟨a.toNat, ha⟩).x = t.x.set 7 (t.sp + 1) := by rw [State.popped, hload]; rfl
      _ = s.x.set 7 s.sp := by rw [h.x, State.pushed_x, Vector.set_set, htsp, BitVec.sub_add_cancel]
      _ = s.x := State.x_set_sp_self s
  · rw [State.popped_pc, h.pc, State.pushed_pc]
    omega
  · have hlow := byte_toNat_sub_one hsp
    have hpos : s.sp.toNat ≠ 0 := fun h0 => hsp (BitVec.eq_of_toNat_eq h0)
    rw [State.byteAt_popped, h.above c (by rw [State.pushed_sp]; omega), State.byteAt_pushed, if_neg (by omega)]

/-- Any registers pushed and popped in nested order, by induction on their list: each pair encloses the rest. -/
theorem pushAllPopAll_restores {as : List Byte} (has : ∀ a ∈ as, a.toNat < 8) :
    ∀ s : State, as.length ≤ s.sp.toNat → ∃ t, Restores (pushAllPopAll as) (4 * as.length) s t := by
  induction as with
  | nil => exact fun s _ => ⟨s, rfl, rfl, rfl, rfl, fun _ _ => rfl⟩
  | cons a as ih =>
    intro s hlen
    rw [List.length_cons] at hlen
    have ha : a.toNat < 8 := has a List.mem_cons_self
    have hsp : s.sp ≠ 0 := fun h0 => by
      rw [h0] at hlen
      exact Nat.not_succ_le_zero _ hlen
    obtain ⟨t, ht⟩ := ih (fun b hb => has b (List.mem_cons_of_mem a hb)) (s.pushed ⟨a.toNat, ha⟩)
      (by rw [State.pushed_sp, byte_toNat_sub_one hsp]; omega)
    exact ⟨_, ht.push_pop ha hsp⟩

/-- Settles O45: one register is the shortest nested sequence. -/
theorem pushThenPopRestoresTheRegisters : Obligations.PushThenPopRestoresTheRegisters := by
  unfold Obligations.PushThenPopRestoresTheRegisters
  intro s a ha hsp
  have hnil : Restores [] 0 (s.pushed ⟨a.toNat, ha⟩) _ := ⟨rfl, rfl, rfl, rfl, fun _ _ => rfl⟩
  have h := hnil.push_pop ha hsp
  exact ⟨_, h.run, h.x, h.pc, h.fault⟩

/-- Settles O46: the nested sequence of all eight registers. -/
theorem pushAllThenPopAllRestoresTheRegisters : Obligations.PushAllThenPopAllRestoresTheRegisters := by
  unfold Obligations.PushAllThenPopAllRestoresTheRegisters
  intro s hsp
  obtain ⟨t, h⟩ := pushAllPopAll_restores (as := [0, 1, 2, 3, 4, 5, 6, 7]) (by decide) s hsp
  exact ⟨t, h.run, h.x, h.pc, h.fault⟩

/-- Settles O47: the POP loads the pushed byte and, into a register other than r7, leaves the stack pointer to its
increment. -/
theorem pushThenPopMovesARegister : Obligations.PushThenPopMovesARegister := by
  unfold Obligations.PushThenPopMovesARegister
  intro s a b ha hb hsp
  have hb8 : b.toNat < 8 := by omega
  have hcell : (s.pushed ⟨a.toNat, ha⟩).byteAt (s.pushed ⟨a.toNat, ha⟩).sp.toNat =
      if a.toNat = 7 then s.x[7] - 1 else s.x[a.toNat] := by
    rw [State.pushed_sp, State.byteAt_pushed, if_pos rfl, State.reg_pushed]
    rfl
  have hload : ((s.pushed ⟨a.toNat, ha⟩).loaded ⟨b.toNat, hb8⟩).sp = s.sp - 1 := by
    rw [State.loaded_sp, if_neg hb.ne, State.pushed_sp]
  have hpop := exec_pop_of_sp_ne hb8 (by rw [hload]; exact byte_sub_one_ne_max hsp)
  refine ⟨(s.pushed ⟨a.toNat, ha⟩).popped ⟨b.toNat, hb8⟩, ?_, ?_, rfl⟩
  · rw [execAll_cons_of_next (exec_push_of_sp_ne ha hsp), execAll_singleton_of_next hpop]
  · rw [State.popped_x, hcell, hload, State.pushed_x, Vector.set_comm _ _ hb.ne, Vector.set_set,
      BitVec.sub_add_cancel, State.x_set_sp_self]

end Sys2Proof.Machine

/-! SUPPORT. CALL and RET (44_call_ret.md): the state each of them commits and what it reads as, the target of a PUSH
followed by a RET and of a CALL followed by its RET, and that no other instruction transfers control. -/

namespace Sys2Proof.Machine

/-! CALL -/

theorem takeFault_causeOverlap (s : State) (op : Byte) (addr : Nat) :
    takeFault s (some op) (causeOverlap addr) = s.withFault .operandOverlap addr op := rfl

theorem overlapCheck_of_ne {s : State} {operand : Nat} (h : s.sp.toNat ≠ operand) : overlapCheck s operand = .ok () :=
  if_neg h

theorem overlapCheck_of_eq {s : State} {operand : Nat} (h : s.sp.toNat = operand) :
    overlapCheck s operand = .error (causeOverlap operand) :=
  if_pos h

/-- The state after CALL's push of the return address, before its jump (R196). -/
def State.linked (s : State) : State :=
  (s.setSp (s.sp - 1)).setByte (s.sp - 1).toNat (BitVec.ofNat 8 (s.pc + 2))

/-- The state a CALL of `x[r]` commits: the push, then the jump to the register as it stands after it (R196). -/
def State.called (s : State) (r : RegName) : State := s.linked.setPc (s.linked.reg r).toNat

@[simp] theorem State.called_x (s : State) (r : RegName) : (s.called r).x = s.x.set 7 (s.sp - 1) := rfl
@[simp] theorem State.called_running (s : State) (r : RegName) : (s.called r).running = s.running := rfl
@[simp] theorem State.called_fault (s : State) (r : RegName) : (s.called r).fault = s.fault := rfl
@[simp] theorem State.called_out (s : State) (r : RegName) : (s.called r).out = s.out := rfl
@[simp] theorem State.called_params (s : State) (r : RegName) : (s.called r).params = s.params := rfl
@[simp] theorem State.called_sp (s : State) (r : RegName) : (s.called r).sp = s.sp - 1 :=
  State.sp_setSp s (s.sp - 1)

theorem State.called_pc (s : State) (r : RegName) :
    (s.called r).pc = (if r.val = 7 then s.sp - 1 else s.reg r).toNat :=
  congrArg BitVec.toNat <|
    (State.reg_setReg s Config.spIndex r (s.sp - 1)).trans (if_congr (eq_comm.trans eq_spIndex_iff) rfl rfl)

/-- The cell below the old stack pointer holds the return address; no other cell changes. -/
theorem State.byteAt_called (s : State) (r : RegName) (c : Nat) :
    (s.called r).byteAt c = if c = (s.sp - 1).toNat then BitVec.ofNat 8 (s.pc + 2) else s.byteAt c :=
  State.byteAt_setByte _ _ _ _

theorem State.byteAt_called_top (s : State) (r : RegName) :
    (s.called r).byteAt (s.sp - 1).toNat = BitVec.ofNat 8 (s.pc + 2) :=
  (State.byteAt_called s r _).trans (if_pos rfl)

/-- After a fetch the return address is a byte (R198). -/
theorem toNat_returnAddress {p : Nat} (h : p ≤ 253) : (BitVec.ofNat 8 (p + 2)).toNat = p + 2 :=
  Nat.mod_eq_of_lt (by omega)

theorem exec_call_of_sp_zero {a : Byte} (h : a.toNat < 8) {s : State} (hsp : s.sp = 0) :
    exec (.call a) s = .next (s.withFault (.outOfRangeAddress .stack) (-1) opCall) := by
  simp only [exec, execCall, checkReg_of_lt h, spDec_of_zero hsp, bind_ok, bind_error, commit_error,
    takeFault_causeStack]

theorem exec_call_of_overlap {a : Byte} (h : a.toNat < 8) {s : State} (hsp : s.sp ≠ 0)
    (hover : (s.sp - 1).toNat = s.pc + 1) :
    exec (.call a) s = .next (s.withFault .operandOverlap (s.pc + 1 : Nat) opCall) := by
  have hcheck : overlapCheck (s.setSp (s.sp - 1)) (s.pc + 1) = _ :=
    overlapCheck_of_eq (by rw [State.sp_setSp, hover])
  simp only [exec, execCall, checkReg_of_lt h, spDec_of_ne hsp, bind_ok, hcheck, bind_error, commit_error,
    takeFault_causeOverlap]

theorem exec_call_of_no_overlap {a : Byte} (h : a.toNat < 8) {s : State} (hsp : s.sp ≠ 0)
    (hover : (s.sp - 1).toNat ≠ s.pc + 1) : exec (.call a) s = .next (s.called ⟨a.toNat, h⟩) := by
  have hcheck : overlapCheck (s.setSp (s.sp - 1)) (s.pc + 1) = _ :=
    overlapCheck_of_ne (by rw [State.sp_setSp]; exact hover)
  simp only [exec, execCall, checkReg_of_lt h, spDec_of_ne hsp, bind_ok, hcheck, memWrite_byte, State.sp_setSp]
  rfl

/-- Settles O24: the three checks of CALL in their order, then the push and the jump. -/
theorem callPushesTheReturnAddressAndJumps : Obligations.CallPushesTheReturnAddressAndJumps := by
  unfold Obligations.CallPushesTheReturnAddressAndJumps
  refine fun s a hp => ⟨fun ha => exec_of_regOperand_gt rfl ha s, fun ha =>
    ⟨exec_call_of_sp_zero ha, exec_call_of_overlap ha, fun hsp hover =>
      ⟨s.called ⟨a.toNat, ha⟩, exec_call_of_no_overlap ha hsp hover, State.called_x s _, State.called_pc s _,
        State.called_running s _, State.called_fault s _, State.called_out s _, State.called_params s _,
        (congrArg BitVec.toNat (State.byteAt_called_top s _)).trans (toNat_returnAddress hp),
        fun c hc => (State.byteAt_called s _ c).trans (if_neg hc)⟩⟩⟩

/-! RET -/

/-- The state a RET to `x[r]` commits: the load, the increment of `x[7]` as it then stands, the jump (R205). -/
def State.returned (s : State) (r : RegName) : State :=
  ((s.loaded r).setSp ((s.loaded r).sp + 1)).setPc (s.byteAt s.sp.toNat).toNat

@[simp] theorem State.returned_x (s : State) (r : RegName) :
    (s.returned r).x = (s.x.set r (s.byteAt s.sp.toNat)).set 7 ((s.loaded r).sp + 1) := rfl
@[simp] theorem State.returned_pc (s : State) (r : RegName) : (s.returned r).pc = (s.byteAt s.sp.toNat).toNat := rfl
@[simp] theorem State.returned_running (s : State) (r : RegName) : (s.returned r).running = s.running := rfl
@[simp] theorem State.returned_fault (s : State) (r : RegName) : (s.returned r).fault = s.fault := rfl
@[simp] theorem State.returned_sp (s : State) (r : RegName) : (s.returned r).sp = (s.loaded r).sp + 1 :=
  State.sp_setSp (s.loaded r) _

theorem exec_ret_of_sp_ne {a : Byte} (h : a.toNat < 8) {s : State} (hsp : (s.loaded ⟨a.toNat, h⟩).sp ≠ 255) :
    exec (.ret a) s = .next (s.returned ⟨a.toNat, h⟩) := by
  have hinc : spInc ((s.setPc (s.byteAt s.sp.toNat).toNat).setReg ⟨a.toNat, h⟩ (s.byteAt s.sp.toNat)) = _ :=
    spInc_of_ne hsp
  simp only [exec, execRet, checkReg_of_lt h, memRead_byte, bind_ok, hinc]
  rfl

theorem exec_ret_of_sp_max {a : Byte} (h : a.toNat < 8) {s : State} (hsp : (s.loaded ⟨a.toNat, h⟩).sp = 255) :
    exec (.ret a) s = .next (s.withFault (.outOfRangeAddress .stack) 256 opRet) := by
  have hinc : spInc ((s.setPc (s.byteAt s.sp.toNat).toNat).setReg ⟨a.toNat, h⟩ (s.byteAt s.sp.toNat)) = _ :=
    spInc_of_max hsp
  simp only [exec, execRet, checkReg_of_lt h, memRead_byte, bind_ok, hinc, commit_error, takeFault_causeStack]

/-- Settles O25: the register check, then the two outcomes of the increment after the load; the load cannot fail. -/
theorem retJumpsToTheTopOfStack : Obligations.RetJumpsToTheTopOfStack := by
  unfold Obligations.RetJumpsToTheTopOfStack
  refine fun s a => ⟨fun ha => exec_of_regOperand_gt rfl ha s, fun ha => ?_⟩
  have hsp : (s.loaded ⟨a.toNat, ha⟩).sp = if a.toNat = 7 then s.byteAt s.x[7].toNat else s.x[7] := State.loaded_sp s _
  rw [← hsp]
  exact ⟨exec_ret_of_sp_max ha, exec_ret_of_sp_ne ha⟩

/-- With the stack pointer one below `v`, a RET to a register other than r7 completes and leaves it at `v`. -/
theorem exec_ret_of_lt_seven {b : Byte} (hb : b.toNat < 7) {u : State} {v : Byte} (hv : v ≠ 0) (hsp : u.sp = v - 1) :
    ∃ t, exec (.ret b) u = .next t ∧ t.pc = (u.byteAt u.sp.toNat).toNat ∧
      t.x = (u.x.set b.toNat (u.byteAt u.sp.toNat)).set 7 v ∧ t.fault = u.fault := by
  have hb8 : b.toNat < 8 := by omega
  have hload : (u.loaded ⟨b.toNat, hb8⟩).sp = v - 1 := by rw [State.loaded_sp, if_neg hb.ne, hsp]
  refine ⟨u.returned ⟨b.toNat, hb8⟩, exec_ret_of_sp_ne hb8 ?_, State.returned_pc u _, ?_, State.returned_fault u _⟩
  · rw [hload]
    exact byte_sub_one_ne_max hv
  · rw [State.returned_x, hload, BitVec.sub_add_cancel]

/-! PUSH, then RET. -/

/-- The top of the stack after a PUSH is the register as the PUSH read it (R176). -/
theorem State.byteAt_pushed_top (s : State) (r : RegName) :
    (s.pushed r).byteAt (s.pushed r).sp.toNat = if r.val = 7 then s.sp - 1 else s.reg r := by
  rw [State.pushed_sp, State.byteAt_pushed, if_pos rfl, State.reg_pushed]

/-- Settles O48: the RET loads the pushed byte and, into a register other than r7, leaves the stack pointer to its
increment. -/
theorem pushThenRetJumpsIndirectly : Obligations.PushThenRetJumpsIndirectly := by
  unfold Obligations.PushThenRetJumpsIndirectly
  intro s a b ha hb hsp
  have hcell : (s.pushed ⟨a.toNat, ha⟩).byteAt (s.pushed ⟨a.toNat, ha⟩).sp.toNat =
      if a.toNat = 7 then s.x[7] - 1 else s.x[a.toNat] := State.byteAt_pushed_top s _
  obtain ⟨t, hret, hpc, hx, hfault⟩ := exec_ret_of_lt_seven hb (v := s.sp) hsp (State.pushed_sp s ⟨a.toNat, ha⟩)
  rw [hcell] at hpc hx
  refine ⟨t, ?_, hpc, ?_, hfault⟩
  · rw [execAll_cons_of_next (exec_push_of_sp_ne ha hsp), execAll_singleton_of_next hret]
  · rw [hx, State.pushed_x, Vector.set_comm _ _ hb.ne, Vector.set_set, State.x_set_sp_self]

/-! Instructions that complete: what their checks let through. -/

/-- An outcome that takes a fault leaves a record. -/
theorem not_next_withFault {s t : State} {kind : FaultKind} {d : Int} {op : Byte}
    {o : Host.Outcome State Fault Refusal} (hfault : o = .next (s.withFault kind d op)) (h : o = .next t) :
    t.fault ≠ none := by
  cases hfault.symm.trans h
  exact Option.some_ne_none _

/-- A handler that ends without a record committed its own writes (60_exceptions.md R223). -/
theorem eq_ok_of_commit {s t : State} {op : Byte} {r : Except FaultCause State} (h : commit s op r = .next t)
    (hf : t.fault = none) : r = .ok t := by
  obtain hok | ⟨e, -, rfl⟩ := commit_cases h
  · exact hok
  · cases hf

/-- The register operand of an instruction that completes names a register. -/
theorem regOperand_lt_of_exec {i : Instr} {a : Byte} {s t : State} (hi : i.regOperand = some a)
    (h : exec i s = .next t) (hf : t.fault = none) : a.toNat < 8 := by
  by_contra ha
  exact not_next_withFault (exec_of_regOperand_gt hi (by omega) s) h hf

/-- A CALL that completes passed its checks and commits its push and jump. -/
theorem exec_call_completes {a : Byte} {s t : State} (h : exec (.call a) s = .next t) (hf : t.fault = none) :
    ∃ ha : a.toNat < 8, s.sp ≠ 0 ∧ t = s.called ⟨a.toNat, ha⟩ := by
  have ha := regOperand_lt_of_exec rfl h hf
  have hsp : s.sp ≠ 0 := fun h0 => not_next_withFault (exec_call_of_sp_zero ha h0) h hf
  have hover : (s.sp - 1).toNat ≠ s.pc + 1 := fun h1 => not_next_withFault (exec_call_of_overlap ha hsp h1) h hf
  cases (exec_call_of_no_overlap ha hsp hover).symm.trans h
  exact ⟨ha, hsp, rfl⟩

/-- A RET that completes passed its checks and commits its load, increment and jump. -/
theorem exec_ret_completes {a : Byte} {s t : State} (h : exec (.ret a) s = .next t) (hf : t.fault = none) :
    ∃ ha : a.toNat < 8, t = s.returned ⟨a.toNat, ha⟩ := by
  have ha := regOperand_lt_of_exec rfl h hf
  have hsp : (s.loaded ⟨a.toNat, ha⟩).sp ≠ 255 := fun h0 => not_next_withFault (exec_ret_of_sp_max ha h0) h hf
  cases (exec_ret_of_sp_ne ha hsp).symm.trans h
  exact ⟨ha, rfl⟩

/-! CALL, then RET. -/

/-- With S = 7 the RET increments the return address it has just loaded into the stack pointer. -/
theorem exec_ret_seven {b : Byte} (hb : b.toNat = 7) {u : State} (hcell : (u.byteAt u.sp.toNat).toNat ≤ 254) :
    ∃ t, exec (.ret b) u = .next t ∧ t.pc = (u.byteAt u.sp.toNat).toNat ∧
      t.sp.toNat = (u.byteAt u.sp.toNat).toNat + 1 ∧ t.fault = u.fault := by
  have hb8 : b.toNat < 8 := by omega
  have hload : (u.loaded ⟨b.toNat, hb8⟩).sp = u.byteAt u.sp.toNat := by rw [State.loaded_sp, if_pos hb]
  refine ⟨u.returned ⟨b.toNat, hb8⟩, exec_ret_of_sp_ne hb8 ?_, State.returned_pc u _, ?_, State.returned_fault u _⟩
  · rw [hload]
    bv_omega
  · rw [State.returned_sp, hload]
    bv_omega

/-- Settles O49: the RET reads the cell the CALL wrote. With S below 7 it undoes the CALL's decrement; with S = 7 it
increments the return address. -/
theorem balancedCallReturnsPastTheCall : Obligations.BalancedCallReturnsPastTheCall := by
  unfold Obligations.BalancedCallReturnsPastTheCall
  intro s t u a b _ _ hp hcall htf husp hucell
  obtain ⟨ha, hsp, rfl⟩ := exec_call_completes hcall htf
  have hsp_u : u.sp = s.sp - 1 := husp.trans (State.called_sp s _)
  have hcell : (u.byteAt u.sp.toNat).toNat = s.pc + 2 := by
    have htop : u.byteAt (s.called ⟨a.toNat, ha⟩).sp.toNat =
        (s.called ⟨a.toNat, ha⟩).byteAt (s.called ⟨a.toNat, ha⟩).sp.toNat := hucell
    rw [State.called_sp] at htop
    rw [hsp_u, htop, State.byteAt_called_top, toNat_returnAddress hp]
  refine ⟨fun hb => ?_, fun hb hp252 => ?_⟩
  · obtain ⟨v, hret, hpc, hx, hfault⟩ := exec_ret_of_lt_seven hb hsp hsp_u
    refine ⟨v, hret, hpc.trans hcell, ?_, ?_, hfault⟩
    · rw [hx, Vector.getElem_set_self]
      rfl
    · rw [hx, Vector.getElem_set_ne _ _ hb.ne', Vector.getElem_set_self, hcell]
  · obtain ⟨v, hret, hpc, hvsp, hfault⟩ := exec_ret_seven hb (u := u) (by omega)
    refine ⟨v, hret, hpc.trans hcell, hvsp.trans ?_, hfault⟩
    rw [hcell]

/-! The target of a transfer of control. -/

/-- A CALL or RET that completes goes to a byte address and leaves the running flag. -/
theorem exec_transfer_completes {a : Byte} {i : Instr} (hi : i = .call a ∨ i = .ret a) {s t : State}
    (h : exec i s = .next t) (hf : t.fault = none) : t.running = s.running ∧ ∃ target : Byte, t.pc = target.toNat := by
  obtain rfl | rfl := hi
  · obtain ⟨ha, -, rfl⟩ := exec_call_completes h hf
    exact ⟨State.called_running s _, _, State.called_pc s _⟩
  · obtain ⟨ha, rfl⟩ := exec_ret_completes h hf
    exact ⟨State.returned_running s _, _, State.returned_pc s _⟩

/-- Settles O50: the target is a byte, so from 254 on the window's first failing address is 256. -/
theorem targetsAtTheEndOfMemoryFaultAtTheNextFetch : Obligations.TargetsAtTheEndOfMemoryFaultAtTheNextFetch := by
  unfold Obligations.TargetsAtTheEndOfMemoryFaultAtTheNextFetch
  intro s t a i hi hr h hf hp
  obtain ⟨hrun, target, htarget⟩ := exec_transfer_completes hi h hf
  have hlt := target.isLt
  exact ⟨_, _, step_of_partial_window (hrun.trans hr) hf (by omega), rfl, rfl, rfl, rfl⟩

/-! The instructions that do not transfer control. -/

/-- The ALU step, where it completes, advances by the amount it is given. -/
theorem aluStep_pc {op : AluOp} {a b : Byte} {n : Nat} {s t : State} (h : aluStep op a b n s = .ok t) :
    t.pc = s.pc + n := by
  obtain ⟨r, -, h⟩ := bind_eq_ok h
  obtain ⟨q, -, h⟩ := bind_eq_ok h
  obtain ⟨v, -, h⟩ := bind_eq_ok h
  cases h
  rfl

/-- Where an instruction's next state is known, its program counter is that state's. -/
theorem pc_eq_of_exec {i : Instr} {s t u : State} (hu : exec i s = .next u) (h : exec i s = .next t) : t.pc = u.pc := by
  cases hu.symm.trans h
  rfl

/-- An instruction of Table PCU that completes advances the program counter by its fixed amount (R210). -/
theorem exec_pc_of_fixedAdvance {i : Instr} {s t : State} {n : Nat} (h : exec i s = .next t) (hf : t.fault = none)
    (hn : fixedAdvance i s.params = some n) : t.pc = s.pc + n := by
  cases i with
  | ldi a v =>
    cases hn
    exact pc_eq_of_exec (exec_ldi_of_lt (regOperand_lt_of_exec rfl h hf) v s) h
  | prn a =>
    cases hn
    exact pc_eq_of_exec (exec_prn_of_lt (regOperand_lt_of_exec rfl h hf) s) h
  | hlt =>
    cases hn
    exact (pc_eq_of_exec (exec_hlt s) h).trans (State.clearRunning_pc s)
  | mul a b =>
    cases hn
    exact aluStep_pc (eq_ok_of_commit h hf)
  | add a b =>
    cases hn
    rw [← addPcAdvance_bytes]
    exact aluStep_pc (eq_ok_of_commit h hf)
  | push a =>
    cases hn
    have ha := regOperand_lt_of_exec rfl h hf
    have hsp : s.sp ≠ 0 := fun h0 => not_next_withFault (exec_push_of_sp_zero ha h0) h hf
    exact pc_eq_of_exec (exec_push_of_sp_ne ha hsp) h
  | pop a =>
    cases hn
    have ha := regOperand_lt_of_exec rfl h hf
    have hsp : (s.loaded ⟨a.toNat, ha⟩).sp ≠ 255 := fun h0 => not_next_withFault (exec_pop_of_sp_max ha h0) h hf
    exact pc_eq_of_exec (exec_pop_of_sp_ne ha hsp) h
  | call a | ret a => cases hn
  | unrecognized op =>
    cases hn
    exact pc_eq_of_exec (exec_unrecognized op s) h

/-- HLT without a recorded fault leaves the status Halted (R141). -/
theorem status_of_exec_hlt {s t : State} (h : exec .hlt s = .next t) (hf : s.fault = none) : t.status = .halted := by
  cases (exec_hlt s).symm.trans h
  simp only [State.status, State.clearRunning_fault, hf, State.clearRunning_running, Bool.false_eq_true, if_false]

/-- Settles O36: the advance instruction by instruction, and the status HLT leaves. -/
theorem onlyCallAndRetTransferControl : Obligations.OnlyCallAndRetTransferControl := by
  unfold Obligations.OnlyCallAndRetTransferControl
  intro i s t n h hs hf hn
  exact ⟨exec_pc_of_fixedAdvance h hf hn, fun hi => status_of_exec_hlt (hi ▸ h) hs⟩

end Sys2Proof.Machine

/-! SUPPORT. Faults (60_exceptions.md R221, R223, R228, R230): which causes the checks of a handler and of the fetch can raise,
and what a step that takes a fault leaves. -/

namespace Sys2Proof.Machine

/-- A cause with a code of 1 to 5: Table E gives each of those a detail, and code 6 is the one never raised (R228). -/
structure FaultCause.Raisable (e : FaultCause) : Prop where
  supported : e.kind ≠ .unsupportedArithmeticOperation
  detailed : e.detail ≠ none

theorem causeMemory_raisable (addr : Nat) : (causeMemory addr).Raisable := ⟨nofun, nofun⟩
theorem causeRegister_raisable (i : Byte) : (causeRegister i).Raisable := ⟨nofun, nofun⟩
theorem causeStack_raisable (v : Int) : (causeStack v).Raisable := ⟨nofun, nofun⟩
theorem causeOverlap_raisable (addr : Nat) : (causeOverlap addr).Raisable := ⟨nofun, nofun⟩
theorem causeOverflow_raisable (r : Nat) : (causeOverflow r).Raisable := ⟨nofun, nofun⟩

/-- Table E numbers the kinds other than UnsupportedArithmeticOperation from 1 to 5. -/
theorem FaultKind.code_bounds {k : FaultKind} (h : k ≠ .unsupportedArithmeticOperation) : 1 ≤ k.code ∧ k.code ≤ 5 := by
  cases k with
  | outOfRangeAddress space => cases space <;> decide
  | operandOverlap | arithmeticOverflow => decide
  | unsupportedArithmeticOperation => exact absurd rfl h

/-! The checks of a handler, one after another. -/

/-- What a checked operation answers meets `P`, or one of its checks raised a cause of Table E. -/
inductive Meets {α : Type} (P : α → Prop) : Except FaultCause α → Prop where
  | ok {a : α} (h : P a) : Meets P (.ok a)
  | error {e : FaultCause} (h : e.Raisable) : Meets P (.error e)

/-- Checked operations in sequence. -/
theorem Meets.bind {α β : Type} {P : α → Prop} {Q : β → Prop} {x : Except FaultCause α} {f : α → Except FaultCause β}
    (hx : Meets P x) (hf : ∀ a, P a → Meets Q (f a)) : Meets Q (x >>= f) := by
  cases hx with
  | ok h => exact hf _ h
  | error h => exact .error h

theorem checkReg_meets (a : Byte) : Meets (fun _ => True) (checkReg a) := by
  rcases checkReg_cases a with ⟨_, h⟩ | ⟨_, h⟩ <;> rw [h]
  · exact .ok trivial
  · exact .error (causeRegister_raisable a)

theorem spDec_meets (s : State) : Meets (fun t => t.fault = s.fault) (spDec s) := by
  rcases spDec_cases s with ⟨_, h⟩ | ⟨_, h⟩ <;> rw [h]
  · exact .ok (State.setSp_fault s _)
  · exact .error (causeStack_raisable _)

theorem spInc_meets (s : State) : Meets (fun t => t.fault = s.fault) (spInc s) := by
  rcases spInc_cases s with ⟨_, h⟩ | ⟨_, h⟩ <;> rw [h]
  · exact .ok (State.setSp_fault s _)
  · exact .error (causeStack_raisable _)

theorem overlapCheck_meets (s : State) (operand : Nat) : Meets (fun _ => True) (overlapCheck s operand) := by
  by_cases h : s.sp.toNat = operand
  · rw [overlapCheck_of_eq h]
    exact .error (causeOverlap_raisable operand)
  · rw [overlapCheck_of_ne h]
    exact .ok trivial

theorem alu_meets (policy : Config.AluOverflow) (op : AluOp) (p q : Byte) :
    Meets (fun _ => True) (alu policy op p q) := by
  rcases alu_cases policy op p q with h | ⟨_, _, h⟩ <;> rw [h]
  · exact .ok trivial
  · exact .error (causeOverflow_raisable _)

/-- An access at the stack pointer needs no case of its own: its address is a byte. -/
theorem memRead_byte_meets (s : State) (b : Byte) : Meets (fun _ => True) (memRead s b.toNat) :=
  memRead_byte s b ▸ .ok trivial

theorem memWrite_byte_meets (s : State) (b v : Byte) : Meets (fun t => t.fault = s.fault) (memWrite s b.toNat v) :=
  memWrite_byte s b v ▸ .ok (State.setByte_fault s _ v)

theorem aluStep_meets (op : AluOp) (a b : Byte) (n : Nat) (s : State) :
    Meets (fun t => t.fault = s.fault) (aluStep op a b n s) :=
  (checkReg_meets a).bind fun _ _ => (checkReg_meets b).bind fun _ _ => (alu_meets _ op _ _).bind fun _ _ => .ok rfl

/-- Every instruction is a sequence of checked operations, none of which writes the record, and its commit. -/
theorem exec_eq_commit (i : Instr) (s : State) :
    ∃ x, exec i s = commit s i.opcode x ∧ Meets (fun t => t.fault = s.fault) x := by
  cases i with
  | ldi a _ | prn a => exact ⟨_, rfl, (checkReg_meets a).bind fun _ _ => .ok rfl⟩
  | hlt => exact ⟨.ok s.clearRunning, rfl, .ok rfl⟩
  | unrecognized _ => exact ⟨.ok (s.advance 1), rfl, .ok rfl⟩
  | mul a b | add a b => exact ⟨_, rfl, aluStep_meets _ a b _ s⟩
  | push a =>
    exact ⟨_, rfl, (checkReg_meets a).bind fun _ _ => (spDec_meets s).bind fun t ht =>
      (memWrite_byte_meets t _ _).bind fun _ hu => .ok (hu.trans ht)⟩
  | pop a =>
    exact ⟨_, rfl, (checkReg_meets a).bind fun _ _ => (memRead_byte_meets s _).bind fun _ _ =>
      (spInc_meets _).bind fun _ ht => .ok ht⟩
  | call a =>
    exact ⟨_, rfl, (checkReg_meets a).bind fun _ _ => (spDec_meets s).bind fun t ht =>
      (overlapCheck_meets t _).bind fun _ _ => (memWrite_byte_meets t _ _).bind fun _ hu => .ok (hu.trans ht)⟩
  | ret a =>
    exact ⟨_, rfl, (checkReg_meets a).bind fun r _ => (memRead_byte_meets s _).bind fun t _ =>
      spInc_meets ((s.setPc t.toNat).setReg r t)⟩

/-- An instruction leaves the record as it was, or it takes a cause of Table E with its own opcode. -/
theorem exec_fault_cases {i : Instr} {s t : State} (h : exec i s = .next t) :
    t.fault = s.fault ∨ ∃ e : FaultCause, e.Raisable ∧ t = takeFault s (some i.opcode) e := by
  obtain ⟨x, hx, hmeets⟩ := exec_eq_commit i s
  rw [hx] at h
  cases hmeets with
  | ok hfault => cases h; exact .inl hfault
  | error he => cases h; exact .inr ⟨_, he, rfl⟩

/-- From a state without a record, one can only come from a fault that the instruction took. -/
theorem exec_takes_fault {i : Instr} {s t : State} {r : FaultRecord} (h : exec i s = .next t) (hs : s.fault = none)
    (hr : t.fault = some r) : ∃ e : FaultCause, e.Raisable ∧ t = takeFault s (some i.opcode) e := by
  rcases exec_fault_cases h with hkept | htaken
  · cases hr.symm.trans (hkept.trans hs)
  · exact htaken

/-! The step. -/

/-- The opcode of a step's record: the byte at the program counter, where there is one (R230). -/
def State.faultOpcode (s : State) : Option Byte := if s.pc ≤ 255 then some (s.byteAt s.pc) else none

/-- A fetch fails on a memory address, with the step's opcode. -/
theorem fetch_error_cases {s : State} {f : FetchFault} (h : fetch s = .error f) :
    f.cause.Raisable ∧ f.opcode = s.faultOpcode := by
  have hp : 253 < s.pc := by
    by_contra hle
    cases (fetch_of_le (by omega)).symm.trans h
  rcases Nat.lt_or_ge 255 s.pc with hout | hin
  · cases (fetch_of_gt hout).symm.trans h
    exact ⟨causeMemory_raisable _, (if_neg hout.not_ge).symm⟩
  · cases (fetch_of_partial (by omega)).symm.trans h
    exact ⟨causeMemory_raisable _, (if_pos hin).symm⟩

/-- A record after a step is a fault of Table E that this step took, in its fetch or in its instruction. -/
theorem step_takes_fault {s t : State} {r : FaultRecord} (h : step s = .next t) (hr : t.fault = some r) :
    ∃ e : FaultCause, e.Raisable ∧ t = takeFault s s.faultOpcode e := by
  obtain ⟨hs, -, ⟨f, hf, rfl⟩ | ⟨hp, hexec⟩⟩ := step_next_cases h
  · obtain ⟨hcause, hop⟩ := fetch_error_cases hf
    exact ⟨f.cause, hcause, by rw [hop]⟩
  · have hop : s.faultOpcode = some (s.byteAt s.pc) := if_pos (by omega)
    have htaken := exec_takes_fault hexec hs hr
    rwa [decodeWindow_opcode, ← hop] at htaken

/-- A step that answers a next state was taken without a record, so none is where there is one (R223). -/
theorem step_ne_next_of_fault {s : State} {r : FaultRecord} (h : s.fault = some r) (t : State) : step s ≠ .next t := by
  intro ht
  obtain ⟨hs, -, -⟩ := step_next_cases ht
  cases h.symm.trans hs

/-- Settles O31: the record after a step is one it took, and taking it changed nothing else. -/
theorem faultsArePrecise : Obligations.FaultsArePrecise := by
  unfold Obligations.FaultsArePrecise
  refine ⟨commit_error, fun s t r h hr => ?_⟩
  obtain ⟨e, he, rfl⟩ := step_takes_fault h hr
  obtain ⟨hlo, hhi⟩ := FaultKind.code_bounds he.supported
  cases hr
  exact ⟨rfl, rfl, rfl, hlo, hhi, he.detailed, rfl, step_ne_next_of_fault rfl⟩

/-- Settles O32: an instruction and a step take only causes their checks raise, and no check raises that kind. -/
theorem unsupportedOperationIsNeverRaised : Obligations.UnsupportedOperationIsNeverRaised := by
  unfold Obligations.UnsupportedOperationIsNeverRaised
  refine ⟨fun i s t r h hs hr => ?_, fun s t r h hr => ?_⟩
  · obtain ⟨e, he, rfl⟩ := exec_takes_fault h hs hr
    cases hr
    exact he.supported
  · obtain ⟨e, he, rfl⟩ := step_takes_fault h hr
    cases hr
    exact he.supported

end Sys2Proof.Machine

/-! SUPPORT. Launch (70_reset_and_hazards.md R255, R258): what the loader's sequential writes leave in each cell, and the state
a launch answers for an image that fits. -/

namespace Sys2Proof.Machine

/-- The loader writes no cell outside its image. -/
theorem Memory.read_loadFrom_of_outside (vs : List Byte) : ∀ {c a : Nat} (m : Memory), a < c ∨ c + vs.length ≤ a →
    Memory.read (Memory.loadFrom c vs m) a = Memory.read m a := by
  induction vs with
  | nil => intro c a m _; rfl
  | cons v vs ih =>
    intro c a m hout
    rw [List.length_cons] at hout
    rw [Memory.loadFrom, ih _ (by omega), Memory.read_poke, if_neg (by omega)]

/-- The loader puts byte `i` of its image at `i` cells past the cursor, and no later write reaches back to it. -/
theorem Memory.read_loadFrom_add (vs : List Byte) : ∀ (c : Nat) (m : Memory) {i : Nat} (hi : i < vs.length),
    Memory.read (Memory.loadFrom c vs m) (c + i) = vs[i] := by
  induction vs with
  | nil => intro c m i hi; cases hi
  | cons v vs ih =>
    intro c m i hi
    cases i with
    | zero =>
      rw [Memory.loadFrom, Nat.add_zero c, Memory.read_loadFrom_of_outside vs _ (.inl c.lt_add_one), Memory.read_poke,
        if_pos rfl, List.getElem_cons_zero]
    | succ i =>
      rw [Memory.loadFrom, ← Nat.add_assoc, Nat.add_right_comm c i 1, ih (c + 1) _ (Nat.lt_of_succ_lt_succ hi),
        List.getElem_cons_succ]

/-- The block after the load: as constructed, but for the cells the image covers (R258). -/
def State.launched (params : Config.Params) (program : List Byte) : State :=
  { State.constructed params with mem := Memory.loadFrom Config.loadBase program [] }

/-- An image that fits is loaded, not refused. -/
theorem State.launch_of_le (params : Config.Params) {program : List Byte} (h : program.length ≤ 256) :
    State.launch params program = .next (State.launched params program) := if_neg h.not_gt

/-- A launched block holds the image from address 0, and `INIT_MEM` in every other cell. -/
theorem State.byteAt_launched (params : Config.Params) (program : List Byte) (a : Nat) :
    (State.launched params program).byteAt a = if h : a < program.length then program[a] else Config.initMem a := by
  change Memory.read (Memory.loadFrom 0 program []) a = _
  split
  next h => rw [← Memory.read_loadFrom_add program 0 [] h, Nat.zero_add]
  next h => rw [Memory.read_loadFrom_of_outside program [] (by omega), Memory.read_nil]

/-- The register file at reset is zero below the stack pointer (R255). -/
theorem resetRegs_eq_zero : ∀ r : RegName, r.val ≤ 6 → resetRegs[r] = 0 := by decide

/-- Settles O1: the load changes memory only, so all else is as constructed, and memory is read through the two laws of the
loader. -/
theorem launchGivesTheResetState : Obligations.LaunchGivesTheResetState := by
  unfold Obligations.LaunchGivesTheResetState
  intro params program hlen
  exact ⟨State.launched params program, State.launch_of_le params hlen, resetRegs_eq_zero, rfl, rfl, rfl, rfl, rfl, rfl, rfl,
    fun a _ => State.byteAt_launched params program a⟩

end Sys2Proof.Machine

/-! SUPPORT. The round trip of encoder and decoder (30_encoding.md sections 1 to 3, R80, R85, R95), words of Table O and the
assembly forms of Table A. -/

namespace Sys2Proof

/-- The encoding is as long as Table L says (R88). -/
theorem encode_length (i : Instr) : (encode i).length = i.length := by
  cases i <;> rfl

/-- A skip is well-formed exactly where its byte is in no row of Table O (R93). -/
theorem wellFormed_unrecognized {op : Byte} : (Instr.unrecognized op).WellFormed ↔ op ∉ recognizedOpcodes := by
  simp [Instr.WellFormed, Instr.wellFormed]

/-- A window that begins with an instruction's encoding decodes to it: the operand bytes the encoding leaves open are the
ones the decoder ignores. -/
theorem decodeWindow_of_encode_append {i : Instr} (hwf : i.WellFormed) {op a b : Byte} {rest tail : List Byte}
    (h : encode i ++ rest = op :: a :: b :: tail) : decodeWindow op a b = i := by
  cases i with
  | ldi _ _ | prn _ | hlt | mul _ _ | add _ _ | push _ | pop _ | call _ | ret _ => cases h; rfl
  | unrecognized _ => cases h; exact decodeWindow_of_not_mem (wellFormed_unrecognized.mp hwf) a b

/-- Decoding an encoding gives the instruction back and drops exactly its bytes, where the window is whole. -/
theorem decode_encode_append {i : Instr} (hwf : i.WellFormed) {rest : List Byte} (h : 3 ≤ (encode i ++ rest).length) :
    decode (encode i ++ rest) = .ok (i, rest) := by
  obtain ⟨op, a, b, tail, hbytes⟩ : ∃ op a b tail, encode i ++ rest = op :: a :: b :: tail := by
    match hbytes : encode i ++ rest with
    | op :: a :: b :: tail => exact ⟨op, a, b, tail, rfl⟩
    | [] | [_] | [_, _] => simp [hbytes] at h
  have hdrop : (encode i ++ rest).drop i.length = rest := List.drop_left' (encode_length i)
  rw [hbytes] at hdrop
  rw [hbytes, decode, decodeWindow_of_encode_append hwf hbytes, hdrop]

/-- Settles O9: the window begins with the encoding, and the bytes beyond it are what the decoder leaves. -/
theorem decodeOfEncodeIsTheInstruction : Obligations.DecodeOfEncodeIsTheInstruction := by
  unfold Obligations.DecodeOfEncodeIsTheInstruction
  exact fun i rest hwf hlen => decode_encode_append hwf hlen

/-- Every window decodes to a well-formed instruction (R95). -/
theorem decodeWindow_wellFormed (op a b : Byte) : (decodeWindow op a b).WellFormed := by
  by_cases hop : op ∈ recognizedOpcodes
  · rcases mem_recognizedOpcodes.mp hop with rfl | rfl | rfl | rfl | rfl | rfl | rfl | rfl | rfl <;> rfl
  · rw [decodeWindow_of_not_mem hop]
    exact wellFormed_unrecognized.mpr hop

/-- The instruction a window decodes to encodes to the head of the window (R80). -/
theorem encode_decodeWindow (op a b : Byte) :
    encode (decodeWindow op a b) = [op, a, b].take (decodeWindow op a b).length := by
  by_cases hop : op ∈ recognizedOpcodes
  · rcases mem_recognizedOpcodes.mp hop with rfl | rfl | rfl | rfl | rfl | rfl | rfl | rfl | rfl <;> rfl
  · rw [decodeWindow_of_not_mem hop]
    rfl

/-- Settles O10: at each row of Table O, and at every byte outside it. -/
theorem encodeOfDecodeIsTheWindowsHead : Obligations.EncodeOfDecodeIsTheWindowsHead := by
  unfold Obligations.EncodeOfDecodeIsTheWindowsHead
  exact fun op a b => ⟨decodeWindow_wellFormed op a b, encode_decodeWindow op a b⟩

/-- No two well-formed instructions have one encoding: with two bytes after it, it decodes to the instruction. -/
theorem encode_injective {i j : Instr} (hi : i.WellFormed) (hj : j.WellFormed) (h : encode i = encode j) : i = j := by
  have hdecode (k : Instr) (hk : k.WellFormed) : decode (encode k ++ [0, 0]) = .ok (k, [0, 0]) :=
    decode_encode_append hk (by cases k <;> simp [encode])
  have hsame := hdecode i hi
  rw [h, hdecode j hj] at hsame
  cases hsame
  rfl

/-- Settles O12: the two instructions are of one length and encode to the bytes the windows share, and an encoding has one
instruction. -/
theorem unusedOperandBytesHaveNoEffect : Obligations.UnusedOperandBytesHaveNoEffect := by
  unfold Obligations.UnusedOperandBytesHaveNoEffect
  intro op a b a' b' h
  have hlen : (decodeWindow op a' b').length = (decodeWindow op a b).length :=
    (decodeWindow_length op a' b').trans (decodeWindow_length op a b).symm
  refine encode_injective (decodeWindow_wellFormed op a' b') (decodeWindow_wellFormed op a b) ?_
  rw [encode_decodeWindow, encode_decodeWindow, hlen, h]

/-- Settles O7: the decoder evaluated at one window per row of Table O, and at one byte outside it. -/
theorem knownWordsDecode : Obligations.KnownWordsDecode := by
  unfold Obligations.KnownWordsDecode
  exact ⟨rfl, rfl, rfl, rfl, rfl, rfl, rfl, rfl, rfl, rfl⟩

/-- Settles O13: operands in range pass the checks of the forms of Table A. -/
theorem assemblyFormsGiveTableABytes : Obligations.AssemblyFormsGiveTableABytes := by
  unfold Obligations.AssemblyFormsGiveTableABytes
  refine ⟨fun a i ha hi => ?_, fun a b ha hb => ?_, fun a ha => ?_, rfl, rfl⟩
  · exact if_pos ⟨Nat.lt_succ_of_le ha, Nat.lt_succ_of_le hi⟩
  · have hregs : a < 8 ∧ b < 8 := ⟨Nat.lt_succ_of_le ha, Nat.lt_succ_of_le hb⟩
    exact ⟨if_pos hregs, if_pos hregs⟩
  · have hreg : a < 8 := Nat.lt_succ_of_le ha
    exact ⟨if_pos hreg, if_pos hreg, if_pos hreg, if_pos hreg, if_pos hreg⟩

end Sys2Proof

/-! SUPPORT. Everything an instruction can do, said once: the state it commits where its checks pass, and the cause it takes
where one fails. The frames of 10_state.md Table RW and section 4 and of 20_memory.md R58 follow case by case. -/

namespace Sys2Proof.Machine

/-- The instruction passes its checks in `s` and commits `t`. -/
inductive Completes : Instr → State → State → Prop where
  | ldi {a : Byte} (ha : a.toNat < 8) (v : Byte) (s : State) :
      Completes (.ldi a v) s ((s.setReg ⟨a.toNat, ha⟩ v).advance 3)
  | prn {a : Byte} (ha : a.toNat < 8) (s : State) :
      Completes (.prn a) s ((s.emit (s.reg ⟨a.toNat, ha⟩)).advance 2)
  | hlt (s : State) : Completes .hlt s s.clearRunning
  | mul {a b v : Byte} {s : State} (ha : a.toNat < 8) (hb : b.toNat < 8)
      (hv : alu s.params.aluOverflow .mul (s.reg ⟨a.toNat, ha⟩) (s.reg ⟨b.toNat, hb⟩) = .ok v) :
      Completes (.mul a b) s ((s.setReg ⟨a.toNat, ha⟩ v).advance 3)
  | add {a b v : Byte} {s : State} (ha : a.toNat < 8) (hb : b.toNat < 8)
      (hv : alu s.params.aluOverflow .add (s.reg ⟨a.toNat, ha⟩) (s.reg ⟨b.toNat, hb⟩) = .ok v) :
      Completes (.add a b) s ((s.setReg ⟨a.toNat, ha⟩ v).advance s.params.addPcAdvance.bytes)
  | push {a : Byte} {s : State} (ha : a.toNat < 8) (hsp : s.sp ≠ 0) : Completes (.push a) s (s.pushed ⟨a.toNat, ha⟩)
  | pop {a : Byte} {s : State} (ha : a.toNat < 8) (hsp : (s.loaded ⟨a.toNat, ha⟩).sp ≠ 255) :
      Completes (.pop a) s (s.popped ⟨a.toNat, ha⟩)
  | call {a : Byte} {s : State} (ha : a.toNat < 8) (hsp : s.sp ≠ 0) (hover : (s.sp - 1).toNat ≠ s.pc + 1) :
      Completes (.call a) s (s.called ⟨a.toNat, ha⟩)
  | ret {a : Byte} {s : State} (ha : a.toNat < 8) (hsp : (s.loaded ⟨a.toNat, ha⟩).sp ≠ 255) :
      Completes (.ret a) s (s.returned ⟨a.toNat, ha⟩)
  | unrecognized (op : Byte) (s : State) : Completes (.unrecognized op) s (s.advance 1)

/-- A check of the instruction fails in `s` with this cause. -/
inductive Raises : Instr → State → FaultCause → Prop where
  | register {i : Instr} {a : Byte} (h : i.regOperand = some a) (ha : 7 < a.toNat) (s : State) :
      Raises i s (causeRegister a)
  | secondRegister {i : Instr} {a b : Byte} (h : i.regOperands = some (a, b)) (ha : a.toNat < 8) (hb : 7 < b.toNat)
      (s : State) : Raises i s (causeRegister b)
  | mulOverflow {a b : Byte} {s : State} (ha : a.toNat < 8) (hb : b.toNat < 8) (hpol : s.params.aluOverflow = .fault)
      (hover : 255 < aluExact .mul (s.reg ⟨a.toNat, ha⟩) (s.reg ⟨b.toNat, hb⟩)) :
      Raises (.mul a b) s (causeOverflow (aluExact .mul (s.reg ⟨a.toNat, ha⟩) (s.reg ⟨b.toNat, hb⟩)))
  | addOverflow {a b : Byte} {s : State} (ha : a.toNat < 8) (hb : b.toNat < 8) (hpol : s.params.aluOverflow = .fault)
      (hover : 255 < aluExact .add (s.reg ⟨a.toNat, ha⟩) (s.reg ⟨b.toNat, hb⟩)) :
      Raises (.add a b) s (causeOverflow (aluExact .add (s.reg ⟨a.toNat, ha⟩) (s.reg ⟨b.toNat, hb⟩)))
  | pushStack {a : Byte} {s : State} (ha : a.toNat < 8) (hsp : s.sp = 0) : Raises (.push a) s (causeStack (-1))
  | popStack {a : Byte} {s : State} (ha : a.toNat < 8) (hsp : (s.loaded ⟨a.toNat, ha⟩).sp = 255) :
      Raises (.pop a) s (causeStack 256)
  | callStack {a : Byte} {s : State} (ha : a.toNat < 8) (hsp : s.sp = 0) : Raises (.call a) s (causeStack (-1))
  | callOverlap {a : Byte} {s : State} (ha : a.toNat < 8) (hsp : s.sp ≠ 0) (hover : (s.sp - 1).toNat = s.pc + 1) :
      Raises (.call a) s (causeOverlap (s.pc + 1))
  | retStack {a : Byte} {s : State} (ha : a.toNat < 8) (hsp : (s.loaded ⟨a.toNat, ha⟩).sp = 255) :
      Raises (.ret a) s (causeStack 256)

/-- An ALU result the policy lets pass is written to the first register, and the program counter advances. -/
theorem aluStep_of_alu_ok {a b : Byte} (ha : a.toNat < 8) (hb : b.toNat < 8) {op : AluOp} (n : Nat) {s : State} {v : Byte}
    (hv : alu s.params.aluOverflow op (s.reg ⟨a.toNat, ha⟩) (s.reg ⟨b.toNat, hb⟩) = .ok v) :
    aluStep op a b n s = .ok ((s.setReg ⟨a.toNat, ha⟩ v).advance n) := by
  rw [aluStep_of_lt ha hb, hv, bind_ok]

theorem Completes.exec_eq {i : Instr} {s t : State} (h : Completes i s t) : exec i s = .next t := by
  cases h with
  | ldi ha v => exact exec_ldi_of_lt ha v s
  | prn ha => exact exec_prn_of_lt ha s
  | hlt => exact exec_hlt s
  | mul ha hb hv => rw [exec_mul, aluStep_of_alu_ok ha hb 3 hv, commit_ok]
  | add ha hb hv => rw [exec_add, aluStep_of_alu_ok ha hb _ hv, commit_ok]
  | push ha hsp => exact exec_push_of_sp_ne ha hsp
  | pop ha hsp => exact exec_pop_of_sp_ne ha hsp
  | call ha hsp hover => exact exec_call_of_no_overlap ha hsp hover
  | ret ha hsp => exact exec_ret_of_sp_ne ha hsp
  | unrecognized op => exact exec_unrecognized op s

theorem Raises.exec_eq {i : Instr} {s : State} {e : FaultCause} (h : Raises i s e) :
    exec i s = .next (takeFault s (some i.opcode) e) := by
  cases h with
  | register hi ha => exact exec_of_regOperand_gt hi ha s
  | secondRegister hi ha hb => exact exec_of_second_regOperand_gt hi ha hb s
  | mulOverflow ha hb hpol hover => rw [exec_mul, aluStep_of_fault_of_gt ha hb .mul 3 hpol hover, commit_error]; rfl
  | addOverflow ha hb hpol hover => rw [exec_add, aluStep_of_fault_of_gt ha hb .add _ hpol hover, commit_error]; rfl
  | pushStack ha hsp => exact exec_push_of_sp_zero ha hsp
  | popStack ha hsp => exact exec_pop_of_sp_max ha hsp
  | callStack ha hsp => exact exec_call_of_sp_zero ha hsp
  | callOverlap ha hsp hover => exact exec_call_of_overlap ha hsp hover
  | retStack ha hsp => exact exec_ret_of_sp_max ha hsp

/-- Once its register operands name registers, an instruction completes or raises by its remaining checks. -/
theorem completes_or_raises_of_lt (i : Instr) (s : State) (hreg : ∀ a, i.regOperand = some a → a.toNat < 8)
    (hregs : ∀ a b, i.regOperands = some (a, b) → b.toNat < 8) : (∃ t, Completes i s t) ∨ ∃ e, Raises i s e := by
  cases i with
  | ldi a v => exact .inl ⟨_, .ldi (hreg a rfl) v s⟩
  | prn a => exact .inl ⟨_, .prn (hreg a rfl) s⟩
  | hlt => exact .inl ⟨_, .hlt s⟩
  | mul a b =>
    rcases alu_cases s.params.aluOverflow .mul (s.reg ⟨a.toNat, hreg a rfl⟩) (s.reg ⟨b.toNat, hregs a b rfl⟩) with
      hv | ⟨hpol, hover, -⟩
    · exact .inl ⟨_, .mul _ _ hv⟩
    · exact .inr ⟨_, .mulOverflow _ _ hpol hover⟩
  | add a b =>
    rcases alu_cases s.params.aluOverflow .add (s.reg ⟨a.toNat, hreg a rfl⟩) (s.reg ⟨b.toNat, hregs a b rfl⟩) with
      hv | ⟨hpol, hover, -⟩
    · exact .inl ⟨_, .add _ _ hv⟩
    · exact .inr ⟨_, .addOverflow _ _ hpol hover⟩
  | push a =>
    rcases eq_or_ne s.sp 0 with hsp | hsp
    · exact .inr ⟨_, .pushStack (hreg a rfl) hsp⟩
    · exact .inl ⟨_, .push (hreg a rfl) hsp⟩
  | pop a =>
    rcases eq_or_ne (s.loaded ⟨a.toNat, hreg a rfl⟩).sp 255 with hsp | hsp
    · exact .inr ⟨_, .popStack _ hsp⟩
    · exact .inl ⟨_, .pop _ hsp⟩
  | call a =>
    rcases eq_or_ne s.sp 0 with hsp | hsp
    · exact .inr ⟨_, .callStack (hreg a rfl) hsp⟩
    · rcases eq_or_ne (s.sp - 1).toNat (s.pc + 1) with hover | hover
      · exact .inr ⟨_, .callOverlap (hreg a rfl) hsp hover⟩
      · exact .inl ⟨_, .call (hreg a rfl) hsp hover⟩
  | ret a =>
    rcases eq_or_ne (s.loaded ⟨a.toNat, hreg a rfl⟩).sp 255 with hsp | hsp
    · exact .inr ⟨_, .retStack _ hsp⟩
    · exact .inl ⟨_, .ret _ hsp⟩
  | unrecognized op => exact .inl ⟨_, .unrecognized op s⟩

/-- An instruction with two register operands checks the first of them first. -/
theorem regOperand_of_regOperands {i : Instr} {a b : Byte} (h : i.regOperands = some (a, b)) : i.regOperand = some a := by
  cases i with
  | mul _ _ | add _ _ => cases h; rfl
  | ldi _ _ | prn _ | hlt | push _ | pop _ | call _ | ret _ | unrecognized _ => cases h

theorem completes_or_raises (i : Instr) (s : State) : (∃ t, Completes i s t) ∨ ∃ e, Raises i s e := by
  by_cases hreg : ∀ a, i.regOperand = some a → a.toNat < 8
  · by_cases hregs : ∀ a b, i.regOperands = some (a, b) → b.toNat < 8
    · exact completes_or_raises_of_lt i s hreg hregs
    · push Not at hregs
      obtain ⟨a, b, hi, hb⟩ := hregs
      exact .inr ⟨_, .secondRegister hi (hreg a (regOperand_of_regOperands hi)) hb s⟩
  · push Not at hreg
    obtain ⟨a, hi, ha⟩ := hreg
    exact .inr ⟨_, .register hi ha s⟩

/-- What `exec` answers is the state it commits, or the state before it with the record of a check that failed. -/
theorem exec_next_cases {i : Instr} {s t : State} (h : exec i s = .next t) :
    Completes i s t ∨ ∃ e, Raises i s e ∧ t = takeFault s (some i.opcode) e := by
  rcases completes_or_raises i s with ⟨u, hu⟩ | ⟨e, he⟩
  · cases hu.exec_eq.symm.trans h
    exact .inl hu
  · cases he.exec_eq.symm.trans h
    exact .inr ⟨e, he, rfl⟩

/-- Every instruction answers a next state (40_engine.md R118). -/
theorem exec_answers_next (i : Instr) (s : State) : ∃ t, exec i s = .next t := by
  rcases completes_or_raises i s with ⟨t, h⟩ | ⟨e, h⟩
  · exact ⟨t, h.exec_eq⟩
  · exact ⟨_, h.exec_eq⟩

/-! Registers. -/

theorem State.reg_setReg_of_ne (s : State) {a : Byte} (ha : a.toNat < 8) (v : Byte) {r : RegName} (h : r.val ≠ a.toNat) :
    (s.setReg ⟨a.toNat, ha⟩ v).reg r = s.reg r := by
  rw [State.reg_setReg, if_neg fun heq => h (Fin.ext_iff.mp heq).symm]

theorem State.reg_setSp_of_ne (s : State) (v : Byte) {r : RegName} (h : r.val ≠ 7) : (s.setSp v).reg r = s.reg r := by
  rw [State.setSp_def, State.reg_setReg, if_neg fun heq => h (Fin.ext_iff.mp heq).symm]

/-- What POP and RET share: the load and the increment write the named register and `x[7]` only. -/
theorem State.reg_loaded_setSp_of_ne (s : State) {a : Byte} (ha : a.toNat < 8) (v : Byte) {r : RegName}
    (h : r.val ≠ a.toNat) (h7 : r.val ≠ 7) : ((s.loaded ⟨a.toNat, ha⟩).setSp v).reg r = s.reg r :=
  (State.reg_setSp_of_ne _ v h7).trans (State.reg_setReg_of_ne s ha _ h)

theorem Completes.reg_eq {i : Instr} {s t : State} (h : Completes i s t) {r : RegName} (hr : mayWriteReg i r = false) :
    t.reg r = s.reg r := by
  cases h with
  | prn | hlt | unrecognized => rfl
  | ldi ha | mul ha | add ha => exact State.reg_setReg_of_ne s ha _ (of_decide_eq_false hr)
  | push | call => exact State.reg_setSp_of_ne s _ (of_decide_eq_false hr)
  | pop ha | ret ha =>
    obtain ⟨hne, h7⟩ := Bool.or_eq_false_iff.mp hr
    exact State.reg_loaded_setSp_of_ne s ha _ (of_decide_eq_false hne) (of_decide_eq_false h7)

/-- Settles O33: a committed state changes the registers of its row of Table RW only, a fault none. -/
theorem registersOutsideTableRWAreUnchanged : Obligations.RegistersOutsideTableRWAreUnchanged := by
  unfold Obligations.RegistersOutsideTableRWAreUnchanged
  intro i s t h r hr
  rcases exec_next_cases h with hdone | ⟨e, -, rfl⟩
  · exact hdone.reg_eq hr
  · exact reg_takeFault s r _ e

/-! Memory. -/

theorem Completes.byteAt_eq {i : Instr} {s t : State} (h : Completes i s t) {c : Nat}
    (hc : ∀ a u, (i = .push a ∨ i = .call a) → spDec s = .ok u → c ≠ u.sp.toNat) : t.byteAt c = s.byteAt c := by
  cases h with
  | ldi | prn | hlt | mul | add | pop | ret | unrecognized => rfl
  | @push a _ ha hsp =>
    have hne := hc a _ (.inl rfl) (spDec_of_ne hsp)
    rw [State.sp_setSp] at hne
    rw [State.byteAt_pushed, if_neg hne]
  | @call a _ ha hsp _ =>
    have hne := hc a _ (.inr rfl) (spDec_of_ne hsp)
    rw [State.sp_setSp] at hne
    rw [State.byteAt_called, if_neg hne]

/-- Settles O34: the one store of PUSH and CALL is at the decremented stack pointer. -/
theorem memoryOutsideTheStoredByteIsUnchanged : Obligations.MemoryOutsideTheStoredByteIsUnchanged := by
  unfold Obligations.MemoryOutsideTheStoredByteIsUnchanged
  intro i s t h c hc
  rcases exec_next_cases h with hdone | ⟨e, -, rfl⟩
  · exact hdone.byteAt_eq hc
  · exact byteAt_takeFault s _ e c

/-! The other components. -/

theorem Completes.params_eq {i : Instr} {s t : State} (h : Completes i s t) : t.params = s.params := by
  cases h <;> rfl

theorem Completes.fault_eq {i : Instr} {s t : State} (h : Completes i s t) : t.fault = s.fault := by
  cases h <;> rfl

theorem Completes.running_eq {i : Instr} {s t : State} (h : Completes i s t) (hi : i ≠ .hlt) : t.running = s.running := by
  cases h with
  | hlt => exact absurd rfl hi
  | ldi | prn | mul | add | push | pop | call | ret | unrecognized => rfl

theorem Completes.out_eq {i : Instr} {s t : State} (h : Completes i s t) (hi : ∀ a, i ≠ .prn a) : t.out = s.out := by
  cases h with
  | @prn a => exact absurd rfl (hi a)
  | ldi | hlt | mul | add | push | pop | call | ret | unrecognized => rfl

/-- Settles O35: a committed state keeps the record and all but the named effects of HLT and PRN; a fault changes the record
only. -/
theorem flagOutputAndRecordFrame : Obligations.FlagOutputAndRecordFrame := by
  unfold Obligations.FlagOutputAndRecordFrame
  intro i s t h
  rcases exec_next_cases h with hdone | ⟨e, -, rfl⟩
  · exact ⟨hdone.params_eq, hdone.running_eq, hdone.out_eq, .inl hdone.fault_eq⟩
  · exact ⟨rfl, fun _ => rfl, fun _ => rfl, .inr ⟨_, rfl, rfl, rfl⟩⟩

/-- An instruction other than HLT leaves the running flag (R38). -/
theorem exec_running_eq {i : Instr} {s t : State} (h : exec i s = .next t) (hi : i ≠ .hlt) : t.running = s.running := by
  rcases exec_next_cases h with hdone | ⟨e, -, rfl⟩
  · exact hdone.running_eq hi
  · rfl

/-- An instruction other than PRN leaves the output (R44). -/
theorem exec_out_eq {i : Instr} {s t : State} (h : exec i s = .next t) (hi : ∀ a, i ≠ .prn a) : t.out = s.out := by
  rcases exec_next_cases h with hdone | ⟨e, -, rfl⟩
  · exact hdone.out_eq hi
  · rfl

/-- Settles O40: HLT lowers the flag and the others leave it; no step is taken with it down. -/
theorem haltedIsTerminal : Obligations.HaltedIsTerminal := by
  unfold Obligations.HaltedIsTerminal
  refine ⟨fun i s t h hr => ?_, fun s t hr => step_ne_next_of_not_running hr t⟩
  by_cases hi : i = .hlt
  · subst hi
    cases (exec_hlt s).symm.trans h
    rfl
  · rw [exec_running_eq h hi, hr]

/-- Settles O41: the step had the flag up, so its instruction was a HLT, whose opcode is the byte at the program counter. -/
theorem onlyHltClearsRunning : Obligations.OnlyHltClearsRunning := by
  unfold Obligations.OnlyHltClearsRunning
  intro s t h hr
  obtain ⟨-, hrun, ⟨f, -, rfl⟩ | ⟨hp, hexec⟩⟩ := step_next_cases h
  · cases hrun.symm.trans hr
  · have hhlt : decodeWindow (s.byteAt s.pc) (s.byteAt (s.pc + 1)) (s.byteAt (s.pc + 2)) = .hlt := by
      by_contra hne
      cases (hrun.symm.trans (exec_running_eq hexec hne).symm).trans hr
    have hop := decodeWindow_opcode (s.byteAt s.pc) (s.byteAt (s.pc + 1)) (s.byteAt (s.pc + 2))
    rw [hhlt] at hop hexec
    cases (exec_hlt s).symm.trans hexec
    exact ⟨hop.symm, hp, rfl⟩

/-- A window that decodes to a PRN has its opcode and its operand. -/
theorem eq_of_decodeWindow_eq_prn {op a b c : Byte} (h : decodeWindow op a b = .prn c) : op = opPrn ∧ a = c := by
  have hop := decodeWindow_opcode op a b
  rw [h] at hop
  cases hop
  cases h
  exact ⟨rfl, rfl⟩

/-- A PRN emits the register its operand names, or faults and emits nothing (R136, R137). -/
theorem exec_prn_out {a : Byte} {s t : State} (h : exec (.prn a) s = .next t) :
    t.out = s.out ∨ ∃ ha : a.toNat < 8, t.out = s.out ++ [s.reg ⟨a.toNat, ha⟩] := by
  rcases exec_next_cases h with hdone | ⟨e, -, rfl⟩
  · cases hdone with
    | prn ha => exact .inr ⟨ha, rfl⟩
  · exact .inl rfl

/-- Settles O42: a failing fetch emits nothing, nor does an instruction other than PRN. -/
theorem onlyPrnEmits : Obligations.OnlyPrnEmits := by
  unfold Obligations.OnlyPrnEmits
  intro s t h
  obtain ⟨-, -, ⟨f, -, rfl⟩ | ⟨-, hexec⟩⟩ := step_next_cases h
  · exact .inl rfl
  · by_cases hprn : ∃ c, decodeWindow (s.byteAt s.pc) (s.byteAt (s.pc + 1)) (s.byteAt (s.pc + 2)) = .prn c
    · obtain ⟨c, hc⟩ := hprn
      obtain ⟨hop, rfl⟩ := eq_of_decodeWindow_eq_prn hc
      rw [hc] at hexec
      exact (exec_prn_out hexec).imp_right fun hout => ⟨hop, hout⟩
    · exact .inl (exec_out_eq hexec (not_exists.mp hprn))

end Sys2Proof.Machine

/-! SUPPORT. The invariant (10_state.md R33, R41; 60_exceptions.md Table E): memory stays canonical and the program counter in
0..256 because a step stores at byte addresses and advances from at most 253 by at most 3, and every cause a check raises is
a row of Table E. -/

namespace Sys2Proof.Machine

/-! Table E, row by row. -/

/-- The record a fault leaves is one of Table E. -/
abbrev FaultCause.InTableE (e : FaultCause) (op : Option Byte) (pc : Nat) : Prop :=
  FaultRecord.tableE { kind := e.kind, detail := e.detail, opcode := op, pc := pc } = true

theorem causeRegister_inTableE {i : Instr} {a b : Byte} (h : i.regOperand = some a) (hb : 7 < b.toNat) (pc : Nat) :
    (causeRegister b).InTableE (some i.opcode) pc := by
  have hlt := b.isLt
  have hdetail : (8 : Int) ≤ b.toNat ∧ (b.toNat : Int) ≤ 255 := by omega
  cases i with
  | ldi _ _ | prn _ | mul _ _ | add _ _ | push _ | pop _ | call _ | ret _ =>
    simp [FaultCause.InTableE, causeRegister, FaultRecord.tableE, Instr.opcode, hdetail]
  | hlt | unrecognized _ => cases h

theorem causeOverflow_inTableE {op : AluOp} {p q code : Byte} (h : 255 < aluExact op p q)
    (hcode : code = opMul ∨ code = opAdd) (pc : Nat) : (causeOverflow (aluExact op p q)).InTableE (some code) pc := by
  have hle := aluExact_le op p q
  have hdetail : (256 : Int) ≤ aluExact op p q ∧ (aluExact op p q : Int) ≤ 65025 := by omega
  simpa [FaultCause.InTableE, causeOverflow, FaultRecord.tableE, hdetail] using hcode

/-- Every cause an instruction raises is in a row of Table E that names the instruction's opcode. -/
theorem Raises.inTableE {i : Instr} {s : State} {e : FaultCause} (h : Raises i s e) :
    e.InTableE (some i.opcode) s.pc := by
  cases h with
  | register hi ha => exact causeRegister_inTableE hi ha s.pc
  | secondRegister hi _ hb => exact causeRegister_inTableE (regOperand_of_regOperands hi) hb s.pc
  | mulOverflow _ _ _ hover => exact causeOverflow_inTableE hover (.inl rfl) s.pc
  | addOverflow _ _ _ hover => exact causeOverflow_inTableE hover (.inr rfl) s.pc
  | pushStack | popStack | callStack | retStack => rfl
  | callOverlap => simp [FaultCause.InTableE, causeOverlap, FaultRecord.tableE, Instr.opcode]

/-- A fetch at a program counter up to 256 fails as Table E says: on address 256, without an opcode only from 256 itself. -/
theorem fetch_error_inTableE {s : State} {f : FetchFault} (hp : s.pc ≤ 256) (h : fetch s = .error f) :
    f.cause.InTableE f.opcode s.pc := by
  rcases Nat.lt_or_ge 255 s.pc with hout | hin
  · have h256 : s.pc = 256 := by omega
    cases (fetch_of_gt hout).symm.trans h
    simp [FaultCause.InTableE, causeMemory, FaultRecord.tableE, h256]
  · have hpart : s.pc = 254 ∨ s.pc = 255 := by
      by_contra hne
      cases (fetch_of_le (s := s) (by omega)).symm.trans h
    cases (fetch_of_partial hpart).symm.trans h
    simp [FaultCause.InTableE, causeMemory, FaultRecord.tableE, show 254 ≤ s.pc ∧ s.pc ≤ 256 by omega,
      show s.pc ≠ 256 by omega]

/-! What a step keeps. -/

/-- A fault of Table E, taken while running with the step's opcode, is a record the invariant allows. -/
theorem faultOk_takeFault {s : State} {op : Option Byte} {e : FaultCause} (hr : s.running = true)
    (hop : op = s.faultOpcode) (he : e.InTableE op s.pc) : (takeFault s op e).faultOk = true := by
  have hopcode : op = if s.pc > 255 then none else some (s.byteAt s.pc) := by
    rw [hop, State.faultOpcode, ← ite_not]
    exact if_congr not_le rfl rfl
  simp [State.faultOk, hr, he, ← hopcode]

/-- Taking such a fault keeps the invariant: nothing but the record changes. -/
theorem takeFault_inv {s : State} (hwf : s.mem.wf = true) (hp : s.pc ≤ 256) {op : Option Byte} {e : FaultCause}
    (hr : s.running = true)
    (hop : op = s.faultOpcode) (he : e.InTableE op s.pc) : (takeFault s op e).Inv :=
  ⟨hwf, hp, faultOk_takeFault hr hop he⟩

theorem Completes.wf {i : Instr} {s t : State} (h : Completes i s t) (hwf : s.mem.wf = true) : t.mem.wf = true := by
  cases h with
  | ldi | prn | hlt | mul | add | pop | ret | unrecognized => exact hwf
  | push | call => exact Memory.wf_poke hwf (s.sp - 1).isLt _

/-- From a program counter that a fetch accepts an instruction reaches 256 at most. -/
theorem Completes.pc_le {i : Instr} {s t : State} (h : Completes i s t) (hp : s.pc ≤ 253) : t.pc ≤ 256 := by
  cases h with
  | ldi | mul => exact Nat.add_le_add_right hp 3
  | prn | push | pop => exact (Nat.add_le_add_right hp 2).trans (by decide)
  | unrecognized => exact (Nat.add_le_add_right hp 1).trans (by decide)
  | hlt => exact hp.trans (by decide)
  | add =>
    rw [State.advance_pc, State.setReg_pc, addPcAdvance_bytes]
    split <;> omega
  | call => exact (BitVec.isLt _).le
  | ret => exact (BitVec.isLt _).le

theorem faultOk_of_no_fault {s : State} (h : s.fault = none) : s.faultOk = true := by
  simp only [State.faultOk, h]

/-- An instruction that a step runs keeps the invariant. -/
theorem exec_keeps_inv {i : Instr} {s t : State} (hwf : s.mem.wf = true) (hf : s.fault = none)
    (hr : s.running = true) (hp : s.pc ≤ 253) (hop : i.opcode = s.byteAt s.pc) (h : exec i s = .next t) : t.Inv := by
  rcases exec_next_cases h with hdone | ⟨e, he, rfl⟩
  · exact ⟨hdone.wf hwf, hdone.pc_le hp, faultOk_of_no_fault (hdone.fault_eq.trans hf)⟩
  · have hopcode : some i.opcode = s.faultOpcode := by rw [hop, State.faultOpcode, if_pos (by omega)]
    exact takeFault_inv hwf (by omega) hr hopcode he.inTableE

/-- Settles O37: a failing fetch is taken as a fault of Table E; a valid one runs an instruction. -/
theorem everyStepKeepsTheInvariant : Obligations.EveryStepKeepsTheInvariant := by
  unfold Obligations.EveryStepKeepsTheInvariant
  intro s t ⟨hwf, hp, _⟩ h
  obtain ⟨hf, hr, ⟨f, hfetch, rfl⟩ | ⟨hwin, hexec⟩⟩ := step_next_cases h
  · obtain ⟨-, hop⟩ := fetch_error_cases hfetch
    exact takeFault_inv hwf hp hr hop (fetch_error_inTableE hp hfetch)
  · exact exec_keeps_inv hwf hf hr hwin (decodeWindow_opcode _ _ _) hexec

/-! Where a run begins. -/

/-- An image that fits leaves the loader's cursor in memory. -/
theorem launched_inv (params : Config.Params) {program : List Byte} (h : program.length ≤ 256) :
    (State.launched params program).Inv := by
  have hwf : (Memory.loadFrom Config.loadBase program []).wf = true :=
    Memory.wf_loadFrom program ((Nat.zero_add _).trans_le h) rfl
  exact ⟨hwf, Nat.zero_le 256, rfl⟩

/-- Settles O3: the length check of the launch. -/
theorem longImageIsRefusedAtLaunch : Obligations.LongImageIsRefusedAtLaunch := by
  unfold Obligations.LongImageIsRefusedAtLaunch
  exact fun params program h => if_pos h

/-- Settles O39: an image too long answers no state, and one that fits is loaded below 256. -/
theorem everyLaunchMeetsTheInvariant : Obligations.EveryLaunchMeetsTheInvariant := by
  unfold Obligations.EveryLaunchMeetsTheInvariant
  intro params program s h
  rcases Nat.lt_or_ge 256 program.length with hlong | hfits
  · cases (longImageIsRefusedAtLaunch params program hlong).symm.trans h
  · cases (State.launch_of_le params hfits).symm.trans h
    exact launched_inv params hfits

/-- Settles O2: the empty image leaves the block as constructed, with no cell written. -/
theorem resetHoldsTableS : Obligations.ResetHoldsTableS := by
  unfold Obligations.ResetHoldsTableS
  exact ⟨State.launch_of_le Config.Params.default (Nat.zero_le 256), rfl, rfl, rfl, rfl, rfl, rfl, rfl, Memory.read_nil⟩

/-- Settles O38: reset is the launch of the empty image. -/
theorem resetMeetsTheInvariant : Obligations.ResetMeetsTheInvariant :=
  launched_inv Config.Params.default (program := []) (Nat.zero_le 256)

end Sys2Proof.Machine

/-! SUPPORT. What a step reads of memory (20_memory.md section 1): with another memory in place that agrees on the fetch window
and on the cell at the stack pointer, the fetch gives the same bytes, the same checks pass or fail, and what is committed
differs in memory only. -/

namespace Sys2Proof.Machine

/-- The state with another memory in place. -/
def State.withMem (s : State) (m : Memory) : State := { s with mem := m }

@[simp] theorem State.withMem_pc (s : State) (m : Memory) : (s.withMem m).pc = s.pc := rfl
@[simp] theorem State.withMem_sp (s : State) (m : Memory) : (s.withMem m).sp = s.sp := rfl
@[simp] theorem State.byteAt_withMem (s : State) (m : Memory) (c : Nat) : (s.withMem m).byteAt c = Memory.read m c := rfl

/-- The two memories agree on the cells of the fetch window that exist. -/
def State.AgreesOnWindow (s : State) (m : Memory) : Prop :=
  ∀ k, k ≤ 2 → s.pc + k ≤ 255 → s.byteAt (s.pc + k) = Memory.read m (s.pc + k)

/-- The two memories agree on the cell at the stack pointer. -/
def State.AgreesOnTop (s : State) (m : Memory) : Prop := s.byteAt s.sp.toNat = Memory.read m s.sp.toNat

/-- The fetch reads nothing but the cells of its window that exist. -/
theorem fetch_withMem {s : State} {m : Memory} (h : s.AgreesOnWindow m) : fetch (s.withMem m) = fetch s := by
  rcases Nat.lt_or_ge 255 s.pc with hout | hin
  · rw [fetch_of_gt hout, fetch_of_gt (s := s.withMem m) hout, State.withMem_pc]
  · have h0 : s.byteAt s.pc = Memory.read m s.pc := h 0 (by omega) hin
    rcases Nat.lt_or_ge 253 s.pc with hpart | hwin
    · have hp : s.pc = 254 ∨ s.pc = 255 := by omega
      rw [fetch_of_partial hp, fetch_of_partial (s := s.withMem m) hp, State.withMem_pc, State.byteAt_withMem, h0]
    · have h1 := h 1 (by omega) (by omega)
      have h2 := h 2 (by omega) (by omega)
      rw [fetch_of_le hwin, fetch_of_le (s := s.withMem m) hwin]
      simp only [State.withMem_pc, State.byteAt_withMem, h0, h1, h2]

/-- The load of POP and RET reads the cell at the stack pointer. -/
theorem State.loaded_withMem {s : State} {m : Memory} (h : s.AgreesOnTop m) (r : RegName) :
    (s.withMem m).loaded r = (s.loaded r).withMem m := by
  rw [State.loaded, State.loaded, State.byteAt_withMem, State.withMem_sp, ← h]
  rfl

theorem State.popped_withMem {s : State} {m : Memory} (h : s.AgreesOnTop m) (r : RegName) :
    (s.withMem m).popped r = (s.popped r).withMem m := by
  rw [State.popped, State.loaded_withMem h]
  rfl

theorem State.returned_withMem {s : State} {m : Memory} (h : s.AgreesOnTop m) (r : RegName) :
    (s.withMem m).returned r = (s.returned r).withMem m := by
  rw [State.returned, State.loaded_withMem h, State.byteAt_withMem, State.withMem_sp s, ← h]
  rfl

/-- The same check fails, with the same cause. -/
theorem Raises.withMem {i : Instr} {s : State} {e : FaultCause} (h : Raises i s e) {m : Memory} (hm : s.AgreesOnTop m) :
    Raises i (s.withMem m) e := by
  cases h with
  | register hi ha => exact .register hi ha _
  | secondRegister hi ha hb => exact .secondRegister hi ha hb _
  | mulOverflow ha hb hpol hover => exact .mulOverflow (s := s.withMem m) ha hb hpol hover
  | addOverflow ha hb hpol hover => exact .addOverflow (s := s.withMem m) ha hb hpol hover
  | pushStack ha hsp => exact .pushStack ha hsp
  | popStack ha hsp => exact .popStack ha (by rw [State.loaded_withMem hm]; exact hsp)
  | callStack ha hsp => exact .callStack ha hsp
  | callOverlap ha hsp hover => exact .callOverlap (s := s.withMem m) ha hsp hover
  | retStack ha hsp => exact .retStack ha (by rw [State.loaded_withMem hm]; exact hsp)

/-- Every cell on which the memories `m` and that of `s` agree is one on which `m'` and that of `t` agree. -/
def KeepsAgreement (s t : State) (m m' : Memory) : Prop :=
  ∀ c, s.byteAt c = Memory.read m c → t.byteAt c = Memory.read m' c

/-- One store, of the same byte at the same address, keeps the agreement. -/
theorem keepsAgreement_poke (s : State) (m : Memory) (a : Nat) (v : Byte) :
    KeepsAgreement s (s.setByte a v) m (Memory.poke m a v) := by
  intro c hc
  rw [State.byteAt_setByte, Memory.read_poke, hc]

/-- The same checks pass, and the committed states differ in memory only. -/
theorem Completes.withMem {i : Instr} {s t : State} (h : Completes i s t) {m : Memory} (hm : s.AgreesOnTop m) :
    ∃ m', Completes i (s.withMem m) (t.withMem m') ∧ KeepsAgreement s t m m' := by
  cases h with
  | ldi ha v => exact ⟨m, .ldi ha v _, fun _ hc => hc⟩
  | prn ha => exact ⟨m, .prn ha (s.withMem m), fun _ hc => hc⟩
  | hlt => exact ⟨m, .hlt (s.withMem m), fun _ hc => hc⟩
  | mul ha hb hv => exact ⟨m, .mul (s := s.withMem m) ha hb hv, fun _ hc => hc⟩
  | add ha hb hv => exact ⟨m, .add (s := s.withMem m) ha hb hv, fun _ hc => hc⟩
  | push ha hsp => exact ⟨_, .push (s := s.withMem m) ha hsp, keepsAgreement_poke s m _ _⟩
  | call ha hsp hover => exact ⟨_, .call (s := s.withMem m) ha hsp hover, keepsAgreement_poke s m _ _⟩
  | pop ha hsp =>
    refine ⟨m, ?_, fun _ hc => hc⟩
    rw [← State.popped_withMem hm]
    exact .pop ha (by rw [State.loaded_withMem hm]; exact hsp)
  | ret ha hsp =>
    refine ⟨m, ?_, fun _ hc => hc⟩
    rw [← State.returned_withMem hm]
    exact .ret ha (by rw [State.loaded_withMem hm]; exact hsp)
  | unrecognized op => exact ⟨m, .unrecognized op (s.withMem m), fun _ hc => hc⟩

theorem exec_withMem {i : Instr} {s t : State} (h : exec i s = .next t) {m : Memory} (hm : s.AgreesOnTop m) :
    ∃ m', exec i (s.withMem m) = .next (t.withMem m') ∧ KeepsAgreement s t m m' := by
  rcases exec_next_cases h with hdone | ⟨e, he, rfl⟩
  · obtain ⟨m', hdone', hcells⟩ := hdone.withMem hm
    exact ⟨m', hdone'.exec_eq, hcells⟩
  · exact ⟨m, (he.withMem hm).exec_eq, fun _ hc => hc⟩

/-- Settles O44: the fetch, failing or not, is the same, and so is what the instruction does but for memory. -/
theorem stepReadsOnlyTheWindowAndTheStackCell : Obligations.StepReadsOnlyTheWindowAndTheStackCell := by
  unfold Obligations.StepReadsOnlyTheWindowAndTheStackCell
  intro s t m hwin htop h
  obtain ⟨hf, hr, ⟨f, hfetch, rfl⟩ | ⟨hp, hexec⟩⟩ := step_next_cases h
  · exact ⟨m, step_of_fetch_error (s := s.withMem m) hr hf ((fetch_withMem hwin).trans hfetch), fun _ hc => hc⟩
  · obtain ⟨m', hexec', hcells⟩ := exec_withMem hexec htop
    have hbyte (k : Nat) (hk : k ≤ 2) : (s.withMem m).byteAt (s.pc + k) = s.byteAt (s.pc + k) :=
      (hwin k hk (by omega)).symm
    have hstep := step_of_window (s := s.withMem m) hr hf hp
    have h0 : (s.withMem m).byteAt s.pc = s.byteAt s.pc := hbyte 0 (by omega)
    rw [State.withMem_pc, h0, hbyte 1 (by omega), hbyte 2 (by omega), hexec'] at hstep
    exact ⟨m', hstep, hcells⟩

end Sys2Proof.Machine

/-! SUPPORT. The status, the ports (10_state.md R41, R47, Table H; 60_exceptions.md R222, R247) and the laws of the wrapping
ALU (42_alu.md R154). -/

namespace Sys2Proof.Machine

/-! The status. -/

theorem status_of_fault {s : State} {r : FaultRecord} (h : s.fault = some r) : s.status = .faulted := by
  simp only [State.status, h]

theorem status_of_running {s : State} (hf : s.fault = none) (hr : s.running = true) : s.status = .running := by
  simp only [State.status, hf, hr, if_true]

theorem status_of_halted {s : State} (hf : s.fault = none) (hr : s.running = false) : s.status = .halted := by
  simp only [State.status, hf, hr, Bool.false_eq_true, if_false]

/-- Settles O4: three cases of the record and the flag, one for each value of the status. -/
theorem statusIsDerivedFromRunningAndFault : Obligations.StatusIsDerivedFromRunningAndFault := by
  unfold Obligations.StatusIsDerivedFromRunningAndFault
  intro s
  cases hf : s.fault with
  | some r => simp [status_of_fault hf]
  | none =>
    cases hr : s.running with
    | true => simp [status_of_running hf hr]
    | false => simp [status_of_halted hf hr]

theorem step_of_halted {s : State} (hf : s.fault = none) (hr : s.running = false) : step s = .fault .halted := by
  simp only [step, hf, hr]

theorem step_of_faulted {s : State} {r : FaultRecord} (h : s.fault = some r) : step s = .fault (.faulted r) := by
  simp only [step, h]

/-- A running block takes a failing fetch as a fault, or runs an instruction, which always answers (40_engine.md R118). -/
theorem step_answers_next {s : State} (hf : s.fault = none) (hr : s.running = true) : ∃ t, step s = .next t := by
  rcases Nat.lt_or_ge 253 s.pc with hout | hin
  · obtain ⟨addr, op, h⟩ := fetch_fails_on_memory hout
    exact ⟨_, step_of_fetch_error hr hf h⟩
  · rw [step_of_window hr hf hin]
    exact exec_answers_next _ s

/-- Settles O16: each status fixes the record and the flag, and with them the step. -/
theorem stepIsPerformedExactlyWhileRunning : Obligations.StepIsPerformedExactlyWhileRunning := by
  unfold Obligations.StepIsPerformedExactlyWhileRunning
  intro s
  obtain ⟨hrunning, hhalted, -⟩ := statusIsDerivedFromRunningAndFault s
  refine ⟨fun h => ?_, fun h => ?_, fun r => step_of_faulted⟩
  · obtain ⟨hr, hf⟩ := hrunning.mp h
    exact step_answers_next hf hr
  · obtain ⟨hr, hf⟩ := hhalted.mp h
    exact step_of_halted hf hr

/-! The ports. -/

/-- Settles O54: the view of a state without a record and of one with it. -/
theorem statusPortGivesTheStatusAndTheRecord : Obligations.StatusPortGivesTheStatusAndTheRecord := by
  unfold Obligations.StatusPortGivesTheStatusAndTheRecord
  refine ⟨fun s => ⟨rfl, fun h => ?_, fun r h => ?_⟩, rfl, rfl, rfl, rfl, rfl, rfl⟩
  · rw [statusPort_of_no_fault h]
    exact ⟨rfl, rfl⟩
  · rw [statusPort_of_fault h]
    exact ⟨rfl, rfl⟩

/-- Settles O5: a record after a step is one the step took, with its opcode and program counter. -/
theorem everyFaultShowsAsUnknownInstruction : Obligations.EveryFaultShowsAsUnknownInstruction := by
  unfold Obligations.EveryFaultShowsAsUnknownInstruction
  intro s t r h hr
  obtain ⟨e, -, rfl⟩ := step_takes_fault h hr
  rw [statusPort_of_fault hr]
  cases hr
  rfl

/-- Settles O6: the memory of the view is the list of the cells by address. -/
theorem tracePortShowsPcMemoryAndRegisters : Obligations.TracePortShowsPcMemoryAndRegisters := by
  unfold Obligations.TracePortShowsPcMemoryAndRegisters
  exact fun s => ⟨rfl, by simp [State.traceRead], fun a ha => by simp [State.traceRead, ha], fun _ => rfl⟩

/-- Settles O26: the skip is the advance by one, which no check guards. -/
theorem skipAdvancesByOne : Obligations.SkipAdvancesByOne := by
  unfold Obligations.SkipAdvancesByOne
  exact fun s op => exec_unrecognized op s

/-! The wrapping ALU. -/

/-- The low byte of the exact product is the product of bytes (R154). -/
theorem ofNat_aluExact_mul (p q : Byte) : BitVec.ofNat 8 (aluExact .mul p q % 256) = p * q :=
  BitVec.eq_of_toNat_eq (by simp [aluExact])

/-- Under `wrap` ADD is the sum of bytes. -/
theorem alu_wrap_add (p q : Byte) : alu .wrap .add p q = .ok (p + q) := by
  rw [alu_wrap, ofNat_aluExact_add]

/-- Under `wrap` MUL is the product of bytes. -/
theorem alu_wrap_mul (p q : Byte) : alu .wrap .mul p q = .ok (p * q) := by
  rw [alu_wrap, ofNat_aluExact_mul]

/-- Settles O29: bytes under sum and product are a commutative ring. -/
theorem wrappedArithmeticLaws : Obligations.WrappedArithmeticLaws := by
  unfold Obligations.WrappedArithmeticLaws
  refine fun op p q r => ⟨?_, ?_, ?_, ?_, ?_⟩
  · cases op with
    | add => rw [alu_wrap_add, alu_wrap_add, add_comm]
    | mul => rw [alu_wrap_mul, alu_wrap_mul, mul_comm]
  · cases op with
    | add => simp only [alu_wrap_add, bind_ok, add_assoc]
    | mul => simp only [alu_wrap_mul, bind_ok, mul_assoc]
  · rw [alu_wrap_add, add_zero]
  · rw [alu_wrap_mul, mul_one]
  · rw [alu_wrap_mul, mul_zero]

end Sys2Proof.Machine
